-- ==== Sys2Proof/Word.lean ====
section
/-! DEFINITION. The word types of LSBSTEG (spec/00_scope.md R10, rule R7 `BYTE_BITS`). -/

namespace Sys2Proof

/-- A `Byte` is an unsigned integer 0 to 255 (R10); bit 0 is its least significant bit. -/
abbrev Byte := BitVec 8

/-- A `Bit` is 0 or 1 and never any other value (R10, R24): `false` is 0, `true` is 1. -/
abbrev Bit := Bool

/-- The 16-bit register width of `TERM` (R27). -/
abbrev Word16 := BitVec 16

end Sys2Proof
end

