-- ==== Sys2Proof/Syntax.lean ====
section
/-! DEFINITION. The six commands of spec/opcode_table.json (spec/30_encoding.md R71). A command names no operand: every
operand is implicit (R73), so no constructor carries an argument. -/

namespace Sys2Proof

/-- One constructor per row of the opcode table, in its order. -/
inductive Instr where
  /-- `PACK`, byte `0x01` (40_bit_packer.md R101). -/
  | pack
  /-- `UNPACK`, byte `0x02` (40_bit_packer.md R103). -/
  | unpack
  /-- `EMBED`, byte `0x03` (41_carrier_codec.md R121). -/
  | embed
  /-- `EXTRACT`, byte `0x04` (41_carrier_codec.md R125). -/
  | extract
  /-- `ENCODE`, byte `0x05` (42_composite.md R140). -/
  | encode
  /-- `DECODE`, byte `0x06` (42_composite.md R141). -/
  | decode
  deriving DecidableEq, Repr

end Sys2Proof
end

