-- ==== Sys2Proof/WellFormed.lean ====
section
/-! DEFINITION. What is well formed: a command byte (spec/30_encoding.md R70, R72). An `Instr` has no field, so every
`Instr` is well formed; the two checks of R72 are on the byte written to `CMD`. -/

namespace Sys2Proof

/-- Field `RSV`, bits 7:3 of a command byte (R70). -/
def cmdRsv (v : Byte) : BitVec 5 := v.extractLsb' 3 5

/-- Field `OPC`, bits 2:0 of a command byte (R70). -/
def cmdOpc (v : Byte) : BitVec 3 := v.extractLsb' 0 3

/-- First check of R72: the reserved bits are `00000`. -/
def rsvIsZero (v : Byte) : Bool := cmdRsv v == 0

/-- Second check of R72: `OPC` is in 1 to 6 (0 and 7 are reserved, R71). -/
def opcIsAssigned (v : Byte) : Bool := cmdOpc v != 0 && cmdOpc v != 7

/-- A command byte is legal iff `RSV = 00000` and `OPC` is in 1 to 6 (R72). -/
def legalCommand (v : Byte) : Bool := rsvIsZero v && opcIsAssigned v

/-- Every instruction is well formed: no command has an operand field (R70, R73, R74). -/
def Instr.wellFormed : Instr → Bool
  | .pack => true
  | .unpack => true
  | .embed => true
  | .extract => true
  | .encode => true
  | .decode => true

end Sys2Proof
end

