-- ==== Sys2Proof/Decode.lean ====
section
/-! DEFINITION. The decoder of the command byte and its encoder (spec/30_encoding.md R70 to R72, 43_system_host.md R156). -/

namespace Sys2Proof

/-- Why a byte is no command (R72); either way the engine raises `IllegalCommand` (R156, R174). -/
inductive DecodeError where
  /-- `RSV` (bits 7:3) is not `00000`. -/
  | reservedBitsSet
  /-- `OPC` is `000`. -/
  | reservedOpcode0
  /-- `OPC` is `111`. -/
  | reservedOpcode7
  deriving DecidableEq, Repr

/-- The command table of R71 on the `OPC` field. -/
def decodeOpc (opc : BitVec 3) : Except DecodeError Instr :=
  match opc.toNat with
  | 1 => .ok .pack
  | 2 => .ok .unpack
  | 3 => .ok .embed
  | 4 => .ok .extract
  | 5 => .ok .encode
  | 6 => .ok .decode
  | 7 => .error .reservedOpcode7
  | _ => .error .reservedOpcode0

/-- The decoder, total on all 256 bytes: the reserved bits are looked at first, then `OPC` (R156). -/
def decode (v : Byte) : Except DecodeError Instr :=
  if cmdRsv v = 0 then decodeOpc (cmdOpc v) else .error .reservedBitsSet

/-- The `OPC` of each command (R71). -/
def opcOf : Instr → BitVec 3
  | .pack => 0b001#3
  | .unpack => 0b010#3
  | .embed => 0b011#3
  | .extract => 0b100#3
  | .encode => 0b101#3
  | .decode => 0b110#3

/-- The command byte: `RSV = 00000`, then `OPC` (R70). -/
def encode (i : Instr) : Byte := 0b00000#5 ++ opcOf i

/-- The one byte of a table word of `nbits` bits: the bits of `w` at and above `nbits` count as 0. A command is one
byte, so there is no byte order to settle (R70). -/
def tableByte (nbits w : Nat) : Byte := BitVec.ofNat 8 (w % 2 ^ nbits)

/-- What `decode` reads from a word numbered as spec/opcode_table.json numbers it; a number that does not fit a command's
eight bits is no command. DESIGN CHOICE (log entry 10). -/
def decodeTableWord (nbits w : Nat) : Option Instr :=
  if w % 2 ^ nbits < 2 ^ 8 then
    match decode (tableByte nbits w) with
    | .ok i => some i
    | .error _ => none
  else none

end Sys2Proof
end

