-- ==== Sys2Proof/Config.lean ====
section
/-! DEFINITION. The parameters the spec fixes (spec/00_scope.md R7, R8). The spec leaves no VALUE open in its model
(the widths and capacities of D3 are unbounded there, the physical interface of D22 is read by no rule), so no free
value stands here. -/

namespace Sys2Proof.Config

/-- `TERM_LEN`: length of the terminator in bits (R7). -/
def termLen : Nat := 16

/-- `TERM`, hardwired `0xFFFE`; bit 15 is the first terminator bit in stream order (R7, R27). -/
def term : Word16 := 0xFFFE#16

/-- `HEADER_SIZE` default, the reset value of `HDR_SIZE` (R7, R26, R38). -/
def headerSizeDefault : Nat := 54

/-- `LSB_MASK`: keeps the upper seven bits of a pixel byte (R7). -/
def lsbMask : Byte := 0xFE#8

end Sys2Proof.Config
end

