-- ==== Sys2Proof/Machine/State.lean ====
section
/-! DEFINITION. The state of one LSBSTEG instance as plain data, and the machine right after reset
(spec/10_state.md R20 to R38; the host's moves 43_system_host.md R151). -/

namespace Sys2Proof.Machine

/-- The machine never stops: apart from the errors of R170, which are next states with `STATUS.ERR = 1`, "no command can
fail" (60_exceptions.md R184), no behaviour has the treatment `stuck` (93_implementation_defined.md), and no access is out
of range (20_memory.md R64). So no fault exists and nobody raises one. -/
inductive Fault where
  deriving DecidableEq, Repr

/-- Why a step gives no next state. -/
inductive Refusal where
  /-- Raised by an arm of `exec` whose instruction has no meaning yet; no arm is in this model. Safe. -/
  | notModelled (mnemonic : String)
  /-- Raised by `runMove` when a host move other than `RESET` comes while `STATUS.BUSY = 1`: such a move does not exist
  (R151, R204; U8 of 93_implementation_defined.md, treatment `refuse`). Safe: the spec gives it no step, and no state with
  `BUSY = 1` is reached from reset (log entry 3). -/
  | hostMoveWhileBusy
  deriving DecidableEq, Repr

/-- The errors a command can end with (60_exceptions.md R170); their codes are `CmdError.code` in Flags. -/
inductive CmdError where
  /-- The bitstream has no contiguous terminator (R171). -/
  | noMarkerFound
  /-- `CAR_LEN < HDR_SIZE` (R172). -/
  | imageTooSmall
  /-- `CTRL.STRICT = 1` and `BIT_LEN > CAR_LEN - HDR_SIZE` (R173). -/
  | insufficientCapacity
  /-- A byte other than `0x01` to `0x06` was written to `CMD` (R174). -/
  | illegalCommand
  deriving DecidableEq, Repr

/-- The ten registers (R32). -/
inductive Reg where
  | cmd | status | ctrl | hdrSize | term | carLen | payLen | bitLen | outLen | matchOff
  deriving DecidableEq, Repr

/-- The registers a host write to which is ignored (R157, D27). -/
inductive ReadOnlyReg where
  | status | term | carLen | payLen | bitLen | outLen | matchOff
  deriving DecidableEq, Repr

/-- The three buffers of bytes (R50); the fourth, `BIT`, holds bits. -/
inductive ByteBuf where
  | car | out | pay
  deriving DecidableEq, Repr

/-- What the host can read (R153). -/
inductive ReadTarget where
  /-- `READ CAR`, `READ OUT`, `READ PAY`. -/
  | bytes (b : ByteBuf)
  /-- `READ BIT`. -/
  | bits
  /-- `READ` of a register. -/
  | reg (r : Reg)
  deriving DecidableEq, Repr

/-- The host's moves (R151), one per step. -/
inductive HostMove where
  /-- `LOAD CAR, v` (R152). -/
  | loadCar (v : List Byte)
  /-- `LOAD PAY, v` (R152). -/
  | loadPay (v : List Byte)
  /-- `LOAD BIT, v` (R152): bits by type (D24). -/
  | loadBit (v : List Bit)
  /-- `READ` (R153). -/
  | read (t : ReadTarget)
  /-- `COPY OUT -> CAR` (R154). -/
  | copyOutToCar
  /-- `CMD <- v`: one engine step (R156). -/
  | writeCmd (v : Byte)
  /-- `SET CTRL.STRICT, x` (R157). -/
  | setStrict (x : Bit)
  /-- A host write of a whole byte to `CTRL` (R157, D26). -/
  | writeCtrl (v : Byte)
  /-- `SET HDR_SIZE, n` (R157). -/
  | setHdrSize (n : Nat)
  /-- A host write to a read-only register, ignored (R157, D27). -/
  | writeReadOnly (r : ReadOnlyReg) (v : Nat)
  /-- `RESET` (70_reset_and_hazards.md R200). -/
  | reset
  deriving DecidableEq, Repr

/-- The whole state (R20). The four length registers are the lengths of their buffers, stored once with them (R25;
log entry 1); `TERM` is hardwired and `CMD` stores nothing (R27, R30; log entry 5). -/
structure State where
  /-- `CAR`, the carrier input buffer (R21); `CAR_LEN` is its length. -/
  car : List Byte
  /-- `OUT`, the carrier output buffer (R22); `OUT_LEN` is its length. -/
  out : List Byte
  /-- `PAY`, the payload buffer (R23); `PAY_LEN` is its length. -/
  pay : List Byte
  /-- `BIT`, the bitstream buffer (R24); `BIT_LEN` is its length. -/
  bit : List Bit
  /-- `HDR_SIZE`, register 3 (R26). -/
  hdrSize : Nat
  /-- `CTRL`, register 2 (R28): bit 0 is `STRICT`. -/
  ctrl : BitVec 8
  /-- `STATUS`, register 1 (R29): `BUSY` 0, `DONE` 1, `ERR` 2, `TRUNC` 3, `ECODE` 6:4. -/
  status : BitVec 8
  /-- `MATCH_OFF`, register 9 (R31). -/
  matchOff : Nat
  /-- The host's moves still to come, first one first. The model's own field, not the spec's. DESIGN CHOICE (log entry 2). -/
  host : List HostMove
  deriving DecidableEq, Repr

/-- The machine right after reset (R38, R200); the host has not moved yet (log entry 2). -/
def State.reset : State where
  car := []
  out := []
  pay := []
  bit := []
  hdrSize := Config.headerSizeDefault
  ctrl := 0x00#8
  status := 0x00#8
  matchOff := 0
  host := []

end Sys2Proof.Machine
end

