-- ==== Sys2Proof/Machine/Flags.lean ====
section
/-! DEFINITION. `STATUS` and `CTRL`: the fields, and the value `STATUS` takes at the end of a command (spec/10_state.md R28,
R29; 43_system_host.md R155; 60_exceptions.md R170, R176, R185). -/

namespace Sys2Proof.Machine

/-- `ECODE` of each error (R170). -/
def CmdError.code : CmdError → BitVec 3
  | .noMarkerFound => 1
  | .imageTooSmall => 2
  | .insufficientCapacity => 3
  | .illegalCommand => 4

/-- The `STATUS` register from its fields: bit 7 reads 0, `ECODE` 6:4, `TRUNC` 3, `ERR` 2, `DONE` 1, `BUSY` 0 (R29). -/
def statusWord (busy done err trunc : Bool) (ecode : BitVec 3) : BitVec 8 :=
  0#1 ++ ecode ++ BitVec.ofBool trunc ++ BitVec.ofBool err ++ BitVec.ofBool done ++ BitVec.ofBool busy

/-- `STATUS` after a success (R155): `DONE = 1`, `TRUNC` as the command's rule says, every other field 0. -/
def statusSuccess (trunc : Bool) : BitVec 8 := statusWord false true false trunc 0

/-- `STATUS` after an error (R176): `ERR = 1`, `ECODE = code(E)`, every other field 0. -/
def statusError (e : CmdError) : BitVec 8 := statusWord false false true false e.code

/-- Field `STATUS.BUSY`, bit 0 (R29). -/
def statusBusy (v : BitVec 8) : Bool := v.getLsbD 0

/-- Field `STATUS.DONE`, bit 1 (R29). -/
def statusDone (v : BitVec 8) : Bool := v.getLsbD 1

/-- Field `STATUS.ERR`, bit 2 (R29). -/
def statusErr (v : BitVec 8) : Bool := v.getLsbD 2

/-- Field `STATUS.TRUNC`, bit 3 (R29). -/
def statusTrunc (v : BitVec 8) : Bool := v.getLsbD 3

/-- Field `STATUS.ECODE`, bits 6:4 (R29). -/
def statusEcode (v : BitVec 8) : BitVec 3 := v.extractLsb' 4 3

/-- `STATUS` with `BUSY = 0` and every other bit as it was. -/
def clearBusy (v : BitVec 8) : BitVec 8 := v &&& 0xFE#8

/-- Field `CTRL.STRICT`, bit 0 (R28). -/
def ctrlStrict (v : BitVec 8) : Bool := v.getLsbD 0

/-- What a write of the byte `v` leaves in `CTRL`: bit 0; writes to the reserved bits 7:1 are ignored (R28, R157, D26). -/
def ctrlWritten (v : BitVec 8) : BitVec 8 := v &&& 0x01#8

end Sys2Proof.Machine
end

