-- ==== Sys2Proof/Machine/Operands.lean ====
section
/-! DEFINITION. The implicit operands of the commands and everything the host can read (spec/30_encoding.md R73,
20_memory.md R50, R56, 10_state.md R25, R32, 43_system_host.md R153). -/

namespace Sys2Proof.Machine

/-- `CAR_LEN`, register 5: the number of valid elements of `CAR` (R25). -/
def carLen (s : State) : Nat := s.car.length

/-- `PAY_LEN`, register 6 (R25). -/
def payLen (s : State) : Nat := s.pay.length

/-- `BIT_LEN`, register 7 (R25). -/
def bitLen (s : State) : Nat := s.bit.length

/-- `OUT_LEN`, register 8 (R25). -/
def outLen (s : State) : Nat := s.out.length

/-- `CTRL.STRICT` (R28). -/
def strict (s : State) : Bool := ctrlStrict s.ctrl

/-- `STATUS.BUSY` (R29). -/
def busy (s : State) : Bool := statusBusy s.status

/-- `P = CAR_LEN - HDR_SIZE`, the number of pixel bytes; used only once `CAR_LEN >= HDR_SIZE` is known (R56, R130). -/
def pixelCount (s : State) : Nat := carLen s - s.hdrSize

/-- The image is shorter than its header (R126, R172). -/
def carTooSmall (s : State) : Bool := decide (carLen s < s.hdrSize)

/-- `BIT_LEN > CAR_LEN - HDR_SIZE`: some stream bits do not fit (R29 `TRUNC`, R123). -/
def bitsOverflow (s : State) : Bool := decide (pixelCount s < bitLen s)

/-- The content of a byte buffer (R50). -/
def byteBuf (b : ByteBuf) (s : State) : List Byte :=
  match b with
  | .car => s.car
  | .out => s.out
  | .pay => s.pay

/-- `MemRead(BUF, i)` of a byte buffer: element `i`, and no value at or beyond the length (R11, R25, R64). -/
def memReadByte (b : ByteBuf) (i : Nat) (s : State) : Option Byte := (byteBuf b s)[i]?

/-- `MemRead(BIT, i)` (R11, R25, R64). -/
def memReadBit (i : Nat) (s : State) : Option Bit := s.bit[i]?

/-- A buffer as (address, byte) pairs, the address being the index (R50): each valid index once, in rising order, and
nothing else, since an element beyond the length does not exist (R25; log entry 1). -/
def bufferCells (v : List Byte) : List Host.Cell := (List.range v.length).zip v

/-- The form of a buffer's cells: the addresses are 0, 1, ... in order with no gap, so strictly rising (R25, R50). -/
abbrev Memory.wf (cells : List Host.Cell) : Prop := cells.map Prod.fst = List.range cells.length

/-- Register numbers (R32). -/
def regNumber : Reg → Nat
  | .cmd => 0
  | .status => 1
  | .ctrl => 2
  | .hdrSize => 3
  | .term => 4
  | .carLen => 5
  | .payLen => 6
  | .bitLen => 7
  | .outLen => 8
  | .matchOff => 9

/-- The register of a number; numbers 10 and above do not exist (R32). -/
def regOfNumber (n : Nat) : Option Reg :=
  match n with
  | 0 => some .cmd
  | 1 => some .status
  | 2 => some .ctrl
  | 3 => some .hdrSize
  | 4 => some .term
  | 5 => some .carLen
  | 6 => some .payLen
  | 7 => some .bitLen
  | 8 => some .outLen
  | 9 => some .matchOff
  | _ => none

/-- The value a `READ` of a register returns (R153): `CMD` reads 0 (R30), `TERM` is hardwired (R27), the reserved bits of
`CTRL` and `STATUS` read 0 (R28, R29, D26). -/
def readReg (r : Reg) (s : State) : Nat :=
  match r with
  | .cmd => 0
  | .status => (s.status &&& 0x7F#8).toNat
  | .ctrl => (s.ctrl &&& 0x01#8).toNat
  | .hdrSize => s.hdrSize
  | .term => Config.term.toNat
  | .carLen => carLen s
  | .payLen => payLen s
  | .bitLen => bitLen s
  | .outLen => outLen s
  | .matchOff => s.matchOff

end Sys2Proof.Machine
end

