-- ==== Sys2Proof/Machine/Transforms.lean ====
section
/-! DEFINITION. The pure functions of the spec (spec/00_scope.md R12): `ByteToBits`, `BitsToByte`, `Frame`, `FindTerm`,
`MuxLSB` and the four transforms `pack`, `unpack`, `embed`, `extract`. -/

namespace Sys2Proof.Machine

/-- `ByteToBits(x)`: element `b` is `(x >> (7-b)) & 1`, most significant bit first (R77, R51). -/
def byteToBits (x : Byte) : List Bit := (List.range 8).map fun b => x.getLsbD (7 - b)

/-- A bit as a byte, 0 or 1. -/
def bitByte (x : Bit) : Byte := (BitVec.ofBool x).setWidth 8

/-- `BitsToByte(c)`: the sum over `b` in 0 to 7 of `c[b] << (7-b)` (R78). It is called on eight bits only; a missing bit
would count as 0 (log entry 9). -/
def bitsToByte (c : List Bit) : Byte :=
  (List.range 8).foldl (fun acc b => acc + (bitByte (c.getD b false) <<< (7 - b))) 0#8

/-- `TERM_BITS`: `TERM` from bit 15 down, fifteen 1 bits then one 0 bit (R52, R75, R76). -/
def termBits : List Bit := (List.range Config.termLen).map fun t => Config.term.getLsbD (15 - t)

/-- The bits of a payload, byte after byte, each most significant bit first (R51). -/
def payloadBits (p : List Byte) : List Bit := p.flatMap byteToBits

/-- `Frame(p)`: the payload's bits, then the terminator (R75). -/
def frame (p : List Byte) : List Bit := payloadBits p ++ termBits

/-- The source's `pack` (R101). -/
def pack (p : List Byte) : List Bit := frame p

/-- The terminator search from bit offset `k` on, `s` being the stream from there (R104). -/
def findTermFrom (k : Nat) (s : List Bit) : Option Nat :=
  match s with
  | [] => none
  | x :: rest => if termBits.isPrefixOf (x :: rest) then some k else findTermFrom (k + 1) rest

/-- `FindTerm(s, len(s))`: the least offset at which the sixteen bits occur contiguously, wholly inside `s` (R104). -/
def findTerm (s : List Bit) : Option Nat := findTermFrom 0 s

/-- The first `m` whole bytes of a stream (R103): byte `j` is `BitsToByte(s[8*j ..< 8*j+8])`. -/
def groupBytes (m : Nat) (s : List Bit) : List Byte :=
  match m with
  | 0 => []
  | m + 1 => bitsToByte (s.take 8) :: groupBytes m (s.drop 8)

/-- The source's `unpack` (R103): the `k div 8` whole bytes before the first terminator, with its offset `k`; `none` where
there is no terminator. The last `k mod 8` bits are dropped. -/
def unpack (s : List Bit) : Option (List Byte × Nat) :=
  match findTerm s with
  | none => none
  | some k => some (groupBytes (k / 8) s, k)

/-- `MuxLSB(c, x) = (c & 0xFE) | x` (R122). -/
def muxLSB (c : Byte) (x : Bit) : Byte := (c &&& Config.lsbMask) ||| bitByte x

/-- The walk over the pixel bytes (R121): one stream bit per byte, and pass-through once the stream is used up. -/
def embedPixels (pixels : List Byte) (s : List Bit) : List Byte :=
  match pixels, s with
  | c :: cs, x :: xs => muxLSB c x :: embedPixels cs xs
  | cs, [] => cs
  | [], _ => []

/-- The source's `embed` for header size `h` (R121): header copied verbatim, then the mutated pixels. Called only with
`len(c) >= h`. -/
def embed (h : Nat) (c : List Byte) (s : List Bit) : List Byte := c.take h ++ embedPixels (c.drop h) s

/-- The source's `extract` for header size `h` (R125): bit 0 of every byte after the header, in order. Called only with
`len(c) >= h`. -/
def extract (h : Nat) (c : List Byte) : List Bit := (c.drop h).map fun x => x.getLsbD 0

end Sys2Proof.Machine
end

