-- ==== Sys2Proof/Machine/Ops.lean ====
section
/-! DEFINITION. The shared operations of the commands: `commit`, `raise` (taking an error) and the halves the commands are
made of (spec/00_scope.md R11, 43_system_host.md R155, 60_exceptions.md R176, 20_memory.md R61). A half answers the shadow
copy of the state that `commit` would make architectural, or the error that discards it. -/

namespace Sys2Proof.Machine

/-- `commit`: the shadow copy becomes the state and `STATUS` says success (R155). -/
def commit (trunc : Bool) (shadow : State) : State := { shadow with status := statusSuccess trunc }

/-- `raise E`: `STATUS` says the error and nothing else changes; nothing is saved and control goes nowhere (R176). The next
command runs as after a success: there is nothing to return from (R179). -/
def raise (e : CmdError) (s : State) : State := { s with status := statusError e }

/-- The end of a command or half that started in `s`: commit its shadow copy, or raise its error from `s`, which discards
the shadow copy (R61, R176). -/
def conclude (s : State) (trunc : Bool) (r : Except CmdError State) : State :=
  match r with
  | .ok shadow => commit trunc shadow
  | .error e => raise e s

/-- The writes of `PACK` (R101): `(BIT, BIT_LEN) <- (pack(PAY), 8*PAY_LEN + 16)`. Raises nothing. -/
def packHalf (s : State) : State := { s with bit := pack s.pay }

/-- The writes of `UNPACK` (R103): `PAY`, `PAY_LEN`, `MATCH_OFF`, or `NoMarkerFound`. -/
def unpackHalf (s : State) : Except CmdError State :=
  match unpack s.bit with
  | none => .error .noMarkerFound
  | some (p, k) => .ok { s with pay := p, matchOff := k }

/-- The writes of `EMBED` (R121): `ImageTooSmall` is checked first, `InsufficientCapacity` second (R178); otherwise
`(OUT, OUT_LEN) <- (embed(CAR, BIT), CAR_LEN)`. -/
def embedHalf (s : State) : Except CmdError State :=
  if carTooSmall s then .error .imageTooSmall
  else if strict s && bitsOverflow s then .error .insufficientCapacity
  else .ok { s with out := embed s.hdrSize s.car s.bit }

/-- The writes of `EXTRACT` (R125): `ImageTooSmall`, or `(BIT, BIT_LEN) <- (extract(CAR), CAR_LEN - HDR_SIZE)`. -/
def extractHalf (s : State) : Except CmdError State :=
  if carTooSmall s then .error .imageTooSmall
  else .ok { s with bit := extract s.hdrSize s.car }

end Sys2Proof.Machine
end

