-- ==== Sys2Proof/Machine/BitPacker.lean ====
section
/-! DEFINITION. The Bit Packer family: `PACK` and `UNPACK` (spec/40_bit_packer.md). -/

namespace Sys2Proof.Machine

/-- `PACK`: payload serializer; always succeeds, `STATUS` 0x02 (R101). -/
def execPack (s : State) : Host.Outcome State Fault Refusal :=
  .next (commit false (packHalf s))

/-- `UNPACK`: terminator frame detector and deserializer; `NoMarkerFound` where `BIT` holds no terminator (R103, R106). -/
def execUnpack (s : State) : Host.Outcome State Fault Refusal :=
  .next (conclude s false (unpackHalf s))

end Sys2Proof.Machine
end

