-- ==== Sys2Proof/Machine/CarrierCodec.lean ====
section
/-! DEFINITION. The Carrier Codec family: `EMBED` and `EXTRACT` (spec/41_carrier_codec.md). -/

namespace Sys2Proof.Machine

/-- `EMBED`: bit-to-byte multiplexer; `TRUNC` is 1 where it succeeded with `BIT_LEN > CAR_LEN - HDR_SIZE` (R121, R123). -/
def execEmbed (s : State) : Host.Outcome State Fault Refusal :=
  .next (conclude s (bitsOverflow s) (embedHalf s))

/-- `EXTRACT`: LSB extractor; reads `CAR`, never `OUT` (R125). -/
def execExtract (s : State) : Host.Outcome State Fault Refusal :=
  .next (conclude s false (extractHalf s))

end Sys2Proof.Machine
end

