-- ==== Sys2Proof/Machine/Composite.lean ====
section
/-! DEFINITION. The composite family: `ENCODE` and `DECODE` (spec/42_composite.md). The first half's write of `BIT` is
committed before the second half starts and stays if the second half raises (R61). -/

namespace Sys2Proof.Machine

/-- `ENCODE`: exactly `PACK`, then `EMBED` on the `BIT` just written; `STATUS` is that of the `EMBED` half (R140). -/
def execEncode (s : State) : Host.Outcome State Fault Refusal :=
  let first := packHalf s
  .next (conclude first (bitsOverflow first) (embedHalf first))

/-- `DECODE`: exactly `EXTRACT`, then, only where it succeeded, `UNPACK` on the `BIT` just written (R141). -/
def execDecode (s : State) : Host.Outcome State Fault Refusal :=
  match extractHalf s with
  | .error e => .next (raise e s)
  | .ok first => .next (conclude first false (unpackHalf first))

end Sys2Proof.Machine
end

