-- ==== Sys2Proof/Machine/HostMoves.lean ====
section
/-! DEFINITION. The host's moves and the issue of a command (spec/43_system_host.md R151 to R157, 70_reset_and_hazards.md
R200). -/

namespace Sys2Proof.Machine

/-- What a `READ` returns (R153). -/
inductive Reply where
  /-- The content of `CAR`, `OUT` or `PAY`. -/
  | bytes (v : List Byte)
  /-- The content of `BIT`. -/
  | bits (v : List Bit)
  /-- The value of a register. -/
  | value (v : Nat)
  deriving DecidableEq, Repr

/-- The value a `READ` returns in state `s` (R153). A `READ` changes no state, so the value is a function beside the step
(log entry 6). -/
def readReply (t : ReadTarget) (s : State) : Reply :=
  match t with
  | .bytes b => .bytes (byteBuf b s)
  | .bits => .bits s.bit
  | .reg r => .value (readReg r s)

/-- `LOAD CAR, v`: content and length in one move (R152). -/
def moveLoadCar (v : List Byte) (s : State) : State := { s with car := v }

/-- `LOAD PAY, v` (R152). -/
def moveLoadPay (v : List Byte) (s : State) : State := { s with pay := v }

/-- `LOAD BIT, v` (R152). -/
def moveLoadBit (v : List Bit) (s : State) : State := { s with bit := v }

/-- `COPY OUT -> CAR`: `CAR <- OUT`, `CAR_LEN <- OUT_LEN` (R154). -/
def moveCopyOutToCar (s : State) : State := { s with car := s.out }

/-- A host write of the byte `v` to `CTRL`: only bit 0 is stored (R157, D26). -/
def moveWriteCtrl (v : Byte) (s : State) : State := { s with ctrl := ctrlWritten v }

/-- `SET CTRL.STRICT, x` (R157). -/
def moveSetStrict (x : Bit) (s : State) : State := moveWriteCtrl (bitByte x) s

/-- `SET HDR_SIZE, n`, any natural number (R157, R26). -/
def moveSetHdrSize (n : Nat) (s : State) : State := { s with hdrSize := n }

/-- `RESET`: every piece of the block's state at its reset value; the host's own later moves stay to come (R200). -/
def moveReset (s : State) : State := { State.reset with host := s.host }

/-- Command issue, `CMD <- v` (R156): a byte other than `0x01` to `0x06` raises `IllegalCommand`, decided before anything
else is looked at (R174); otherwise the command runs to its end. -/
def issueCommand (v : Byte) (s : State) : Host.Outcome State Fault Refusal :=
  match decode v with
  | .ok i => exec i s
  | .error _ => .next (raise .illegalCommand s)

/-- One move of an idle engine's host (R151). -/
def idleMove (m : HostMove) (s : State) : Host.Outcome State Fault Refusal :=
  match m with
  | .loadCar v => .next (moveLoadCar v s)
  | .loadPay v => .next (moveLoadPay v s)
  | .loadBit v => .next (moveLoadBit v s)
  | .read _ => .next s
  | .copyOutToCar => .next (moveCopyOutToCar s)
  | .writeCmd v => issueCommand v s
  | .setStrict x => .next (moveSetStrict x s)
  | .writeCtrl v => .next (moveWriteCtrl v s)
  | .setHdrSize n => .next (moveSetHdrSize n s)
  | .writeReadOnly _ _ => .next s
  | .reset => .next (moveReset s)

/-- One host move. A move is possible only while `STATUS.BUSY = 0` (R151, R204); `RESET` alone has its effect in every state
(R200, R201; log entry 3). -/
def runMove (m : HostMove) (s : State) : Host.Outcome State Fault Refusal :=
  if busy s && m != .reset then .refused .hostMoveWhileBusy else idleMove m s

end Sys2Proof.Machine
end

