-- ==== Sys2Proof/Machine/Step.lean ====
section
/-! DEFINITION. One step of the machine: the host's next move, taken from the front of `host`; the engine waits where there
is none (spec/10_state.md R38, 43_system_host.md R151; log entry 2). -/

namespace Sys2Proof.Machine

/-- One step. With no move to come the engine is idle and waits: nothing changes (R38, R188). -/
def step (s : State) : Host.Outcome State Fault Refusal :=
  match s.host with
  | [] => .next s
  | m :: rest => runMove m { s with host := rest }

/-- `s` with the write of the word's byte to `CMD` as the host's very next move, the engine being idle (log entry 10). -/
def State.withFetchWord (s : State) (nbits w : Nat) : State :=
  { s with status := clearBusy s.status, host := .writeCmd (tableByte nbits w) :: s.host }

end Sys2Proof.Machine
end

