-- ==== Sys2Proof/Machine/Streaming.lean ====
section
/-! DEFINITION. The streaming realisations of the two circuits (spec/40_bit_packer.md R107, R110). Their registers are
cleared at the start of a command and cannot be observed (10_state.md R36), so they stand beside `State`, not in it, and no
step uses them (log entry 12). -/

namespace Sys2Proof.Machine

/-- The registers of the terminator frame detector (R107, R36). -/
structure Detector where
  /-- `WIN`, the 16-bit shift window. -/
  win : Word16
  /-- `n`, the number of bits read. -/
  n : Nat
  /-- `ACC`, the deserializer's accumulator. -/
  acc : Byte
  /-- `CNT`, its fill count. -/
  cnt : Nat
  /-- The whole bytes written to `PAY` so far; `m` is their number. -/
  written : List Byte
  deriving DecidableEq, Repr

/-- Everything cleared (R107). -/
def detectorStart : Detector where
  win := 0
  n := 0
  acc := 0
  cnt := 0
  written := []

/-- `((v << 1) | x)`, cut to the width: one shift of the window. -/
def shiftWindow (v : Word16) (x : Bit) : Word16 := (v <<< 1) ||| (BitVec.ofBool x).setWidth 16

/-- One shift of the accumulator. -/
def shiftAcc (v : Byte) (x : Bit) : Byte := (v <<< 1) ||| bitByte x

/-- Hand the bit `x` to the deserializer (R107): a byte is written after every eighth bit. -/
def deserialize (d : Detector) (x : Bit) : Detector :=
  if d.cnt + 1 = 8 then
    { d with written := d.written ++ [shiftAcc d.acc x], acc := 0, cnt := 0 }
  else
    { d with acc := shiftAcc d.acc x, cnt := d.cnt + 1 }

/-- The window after reading `x`. -/
def detectorShift (d : Detector) (x : Bit) : Detector := { d with win := shiftWindow d.win x, n := d.n + 1 }

/-- The detector run over the rest of a stream (R107): at a match the bytes written and `k = n - 16`; at the end of the
stream `none`, which is `NoMarkerFound`. -/
def detectorRun (d : Detector) (s : List Bit) : Option (List Byte × Nat) :=
  match s with
  | [] => none
  | x :: rest =>
    let e := detectorShift d x
    if 16 ≤ e.n then
      if e.win = Config.term then some (e.written, e.n - 16)
      else detectorRun (deserialize e (e.win.getLsbD 15)) rest
    else detectorRun e rest

/-- The one-pass detector (R107). -/
def streamUnpack (s : List Bit) : Option (List Byte × Nat) := detectorRun detectorStart s

/-- The registers of the payload serializer (R110): the shift register with the number of bits left in it, the bytes not yet
loaded, and the number of terminator bits emitted. -/
structure Serializer where
  /-- The 8-bit parallel-load shift register. -/
  sr : Byte
  /-- Bits of `sr` not yet shifted out. -/
  left : Nat
  /-- Payload bytes not yet loaded. -/
  rest : List Byte
  /-- Terminator bits already shifted out. -/
  termOut : Nat
  deriving DecidableEq, Repr

/-- The serializer at the start of `PACK` on the payload `p`. -/
def serializerStart (p : List Byte) : Serializer where
  sr := 0
  left := 0
  rest := p
  termOut := 0

/-- One emitted bit and the registers after it (R110): bit 7 of the shift register first, the next byte loaded when it is
empty, the sixteen bits of `TERM` from bit 15 down after the last byte, and then nothing. -/
def serializerStep (r : Serializer) : Option (Bit × Serializer) :=
  match r.left, r.rest with
  | k + 1, _ => some (r.sr.getLsbD 7, { r with sr := r.sr <<< 1, left := k })
  | 0, x :: xs => some (x.getLsbD 7, { r with sr := x <<< 1, left := 7, rest := xs })
  | 0, [] =>
    if r.termOut < Config.termLen then
      some (Config.term.getLsbD (15 - r.termOut), { r with termOut := r.termOut + 1 })
    else none

/-- The bits emitted in at most `n` steps, in order. -/
def serializerRun (n : Nat) (r : Serializer) : List Bit :=
  match n with
  | 0 => []
  | n + 1 =>
    match serializerStep r with
    | none => []
    | some (x, r') => x :: serializerRun n r'

end Sys2Proof.Machine
end

