-- ==== Sys2Proof/Safety.lean ====
section
/-! DEFINITION. The predicates the statements use: the invariant of the state, an occurrence of the terminator, a collision,
the statuses a command may end in, a command's inputs (spec/10_state.md R29, R39; 40_bit_packer.md R104, R108; 60_exceptions.md R186; 30_encoding.md R73). -/

namespace Sys2Proof.Safety

open Sys2Proof.Machine

/-- The terminator occurs in `s` at offset `k`: `k + 16 <= len(s)` and the sixteen bits from `k` on are fifteen 1s and a 0
(R76, R104). Written from the rule's bits, not from the decoder's search. -/
def OccursAt (s : List Bit) (k : Nat) : Prop :=
  k + 16 ≤ s.length ∧ (∀ t, t < 15 → s[k + t]? = some true) ∧ s[k + 15]? = some false

/-- `k` is the least offset at which the terminator occurs (R104). -/
def FirstOccursAt (s : List Bit) (k : Nat) : Prop :=
  OccursAt s k ∧ ∀ j, j < k → ¬ OccursAt s j

/-- Position `z` of `s` is a 0 bit immediately preceded by fifteen 1 bits (R105, R108). -/
def ZeroAfterFifteenOnes (s : List Bit) (z : Nat) : Prop :=
  15 ≤ z ∧ s[z]? = some false ∧ ∀ t, t < 15 → s[z - 15 + t]? = some true

/-- The no-collision condition on a payload: no 0 bit among the payload's bits is immediately preceded by fifteen 1 bits, all
sixteen positions inside the payload bits (R108). -/
def NoCollision (p : List Byte) : Prop := ∀ z, ¬ ZeroAfterFifteenOnes (payloadBits p) z

/-- The `STATUS` values that can be read between two moves (R185). -/
def statusValues : List (BitVec 8) := [0x00#8, 0x02#8, 0x0A#8, 0x14#8, 0x24#8, 0x34#8, 0x44#8]

/-- The `STATUS` values each command can end in (R186). -/
def statusesOf : Instr → List (BitVec 8)
  | .pack => [0x02#8]
  | .unpack => [0x02#8, 0x14#8]
  | .embed => [0x02#8, 0x0A#8, 0x24#8, 0x34#8]
  | .extract => [0x02#8, 0x24#8]
  | .encode => [0x02#8, 0x0A#8, 0x24#8, 0x34#8]
  | .decode => [0x02#8, 0x14#8, 0x24#8]

/-- The two states agree on the inputs of the command, each command's own list of R73 (a buffer's length is in its content). -/
def SameInputs (i : Instr) (s₁ s₂ : State) : Prop :=
  match i with
  | .pack => s₁.pay = s₂.pay
  | .unpack => s₁.bit = s₂.bit
  | .embed => s₁.car = s₂.car ∧ s₁.bit = s₂.bit ∧ s₁.hdrSize = s₂.hdrSize ∧ strict s₁ = strict s₂
  | .extract => s₁.car = s₂.car ∧ s₁.hdrSize = s₂.hdrSize
  | .encode => s₁.pay = s₂.pay ∧ s₁.car = s₂.car ∧ s₁.hdrSize = s₂.hdrSize ∧ strict s₁ = strict s₂
  | .decode => s₁.car = s₂.car ∧ s₁.hdrSize = s₂.hdrSize

/-- The invariant of every reachable state (R39, R185): `STATUS` is one of the seven values, so `BUSY` and the reserved bit
are 0 and R29's conditions hold, and the reserved bits of `CTRL` are 0. That every buffer has as many elements as its length
register says, and that every element is a byte or a bit, hold by the types. -/
def Inv (s : State) : Prop := s.status ∈ statusValues ∧ s.ctrl &&& 0xFE#8 = 0#8

end Sys2Proof.Safety
end

