-- ==== Sys2Proof/Certificates/Slice0/Obligations.lean ====
section
/-! DEFINITION. The statements about the machine, from the numbered rules of spec/. -/

open Sys2Proof Sys2Proof.Machine Sys2Proof.Safety

/-! ## Encoding -/

/-- R71: the command bytes of the table, both ways, and the two reserved operation codes. -/
def Obligations.CommandTable : Prop :=
  (decode 0x01#8 = .ok .pack ∧ decode 0x02#8 = .ok .unpack ∧ decode 0x03#8 = .ok .embed ∧
    decode 0x04#8 = .ok .extract ∧ decode 0x05#8 = .ok .encode ∧ decode 0x06#8 = .ok .decode) ∧
  (encode .pack = 0x01#8 ∧ encode .unpack = 0x02#8 ∧ encode .embed = 0x03#8 ∧
    encode .extract = 0x04#8 ∧ encode .encode = 0x05#8 ∧ encode .decode = 0x06#8) ∧
  decode 0x00#8 = .error .reservedOpcode0 ∧ decode 0x07#8 = .error .reservedOpcode7

/-- R72, R174: a byte is a command iff it is one of 0x01 to 0x06, which is `RSV = 00000` with `OPC` in 1 to 6; issuing any
other byte raises `IllegalCommand` in every state, and nothing but `STATUS` changes; the host's write of such a byte to `CMD`,
possible while the engine is idle, does exactly that. -/
def Obligations.IllegalBytesRaiseIllegalCommand : Prop :=
  ∀ v : Byte,
    ((∃ i, decode v = .ok i) ↔ (1 ≤ v.toNat ∧ v.toNat ≤ 6)) ∧
    ((1 ≤ v.toNat ∧ v.toNat ≤ 6) ↔
      (v.extractLsb' 3 5 = 0#5 ∧ 1 ≤ (v.extractLsb' 0 3).toNat ∧ (v.extractLsb' 0 3).toNat ≤ 6)) ∧
    (¬ (1 ≤ v.toNat ∧ v.toNat ≤ 6) → ∀ s : State,
      issueCommand v s = .next { s with status := 0x44#8 } ∧
      (busy s = false → runMove (.writeCmd v) s = .next { s with status := 0x44#8 }))

/-- From R70, R71: each byte has at most one command and each command exactly one byte; the decoder and the encoder agree
both ways. -/
def Obligations.DecodeEncodeAgree : Prop :=
  ∀ (v : Byte) (i : Instr), decode v = .ok i ↔ encode i = v

/-- R77, R78: `ByteToBits` and `BitsToByte`, element by element and as a sum, and that each inverts the other. -/
def Obligations.ByteBitsInverse : Prop :=
  (∀ x : Byte, (byteToBits x).length = 8 ∧
    (∀ b, b < 8 → (byteToBits x)[b]? = some (x.getLsbD (7 - b))) ∧ bitsToByte (byteToBits x) = x) ∧
  (∀ c : List Bit, c.length = 8 →
    byteToBits (bitsToByte c) = c ∧
    (bitsToByte c).toNat = ((List.range 8).map fun b => (c.getD b false).toNat * 2 ^ (7 - b)).sum)

/-! ## The step, and the host's moves -/

/-- From R156, R151: with the engine idle and a legal byte's write to `CMD` the host's next move, a step is exactly the
command's `exec` on the same state less that move. The list of moves is the model's own (log entry 2). -/
def Obligations.StepRunsTheDecodedCommand : Prop :=
  ∀ (s : State) (v : Byte) (i : Instr) (rest : List HostMove),
    s.host = .writeCmd v :: rest → busy s = false → decode v = .ok i →
    step s = exec i { s with host := rest }

/-- From R156, R174: from an idle engine the host's write of any byte to `CMD`, legal or not, is the issue of that byte as a
command, of the move and of a whole step; so what is said of `issueCommand` is said of the step. For an illegal byte the step
sets `STATUS` to 0x44 and changes nothing else of the block. The list of moves is the model's own (log entry 2). -/
def Obligations.CommandWriteIssuesTheByte : Prop :=
  ∀ (s : State) (v : Byte), busy s = false →
    runMove (.writeCmd v) s = issueCommand v s ∧
    ∀ rest : List HostMove, s.host = .writeCmd v :: rest →
      step s = issueCommand v { s with host := rest } ∧
      (∀ i, decode v = .ok i → step s = exec i { s with host := rest }) ∧
      (¬ (1 ≤ v.toNat ∧ v.toNat ≤ 6) → step s = .next { s with host := rest, status := 0x44#8 })

/-- From R156: a table word that decodes is run by the very next step once it stands as the next move (log entry 10). -/
def Obligations.TableWordRunsNext : Prop :=
  ∀ (s : State) (nbits w : Nat) (i : Instr), decodeTableWord nbits w = some i →
    step (s.withFetchWord nbits w) = exec i { s with status := clearBusy s.status }

/-- From R38: with no move of the host's to come the engine waits and nothing changes (log entry 2). -/
def Obligations.EngineWaitsForTheHost : Prop :=
  ∀ s : State, s.host = [] → step s = .next s

/-- From R151, R204 and U8: while `STATUS.BUSY = 1` a host move has no step, but `RESET` has its effect in every state
(log entry 3, the model's choice). -/
def Obligations.BusyAdmitsOnlyReset : Prop :=
  ∀ (s : State) (m : HostMove) (rest : List HostMove), s.host = m :: rest →
    (m ≠ .reset → s.status.getLsbD 0 = true → step s = .refused .hostMoveWhileBusy) ∧
    (m = .reset → step s = .next { State.reset with host := rest })

/-- From R151, R62: where the host's next move is `m`, a step is exactly that move on the same state less the move. The list of
moves is the model's own (log entry 2). -/
def Obligations.StepMakesTheNextMove : Prop :=
  ∀ (s : State) (m : HostMove) (rest : List HostMove), s.host = m :: rest →
    step s = runMove m { s with host := rest }

/-- R152: `LOAD` replaces the buffer's content and length in one move and changes nothing else. -/
def Obligations.LoadReplacesBuffer : Prop :=
  ∀ s : State, busy s = false →
    (∀ v, runMove (.loadCar v) s = .next { s with car := v } ∧ carLen { s with car := v } = v.length) ∧
    (∀ v, runMove (.loadPay v) s = .next { s with pay := v } ∧ payLen { s with pay := v } = v.length) ∧
    (∀ v, runMove (.loadBit v) s = .next { s with bit := v } ∧ bitLen { s with bit := v } = v.length)

/-- R153: a `READ` returns the buffer's elements or the register's value and changes no state, `STATUS` included; an element
at or beyond the length cannot be read. -/
def Obligations.ReadReturnsAndChangesNothing : Prop :=
  (∀ (s : State) (t : ReadTarget), busy s = false → runMove (.read t) s = .next s) ∧
  (∀ s : State,
    readReply (.bytes .car) s = .bytes s.car ∧ readReply (.bytes .out) s = .bytes s.out ∧
    readReply (.bytes .pay) s = .bytes s.pay ∧ readReply .bits s = .bits s.bit ∧
    (∀ r, readReply (.reg r) s = .value (readReg r s)) ∧
    readReg .cmd s = 0 ∧ readReg .hdrSize s = s.hdrSize ∧ readReg .term s = 0xFFFE ∧
    readReg .carLen s = s.car.length ∧ readReg .payLen s = s.pay.length ∧
    readReg .bitLen s = s.bit.length ∧ readReg .outLen s = s.out.length ∧ readReg .matchOff s = s.matchOff ∧
    (Inv s → readReg .status s = s.status.toNat ∧ readReg .ctrl s = s.ctrl.toNat)) ∧
  (∀ (s : State) (i : Nat),
    (memReadByte .car i s = none ↔ s.car.length ≤ i) ∧ (memReadByte .out i s = none ↔ s.out.length ≤ i) ∧
    (memReadByte .pay i s = none ↔ s.pay.length ≤ i) ∧ (memReadBit i s = none ↔ s.bit.length ≤ i))

/-- R154: `COPY OUT -> CAR` sets `CAR` and `CAR_LEN` to `OUT` and `OUT_LEN` and changes nothing else, and is the same as
`READ OUT` followed by `LOAD CAR` with what was read. -/
def Obligations.CopyIsReadThenLoad : Prop :=
  ∀ s : State, busy s = false →
    runMove .copyOutToCar s = .next { s with car := s.out } ∧
    carLen { s with car := s.out } = outLen s ∧
    ∀ v, readReply (.bytes .out) s = .bytes v → runMove .copyOutToCar s = runMove (.loadCar v) s

/-- From R157: a `SET` writes its register and nothing else, a `CTRL` write keeps bit 0 only, and writes to the read-only
registers are ignored. That a whole-byte write of `CTRL` and a write to a read-only register are moves at all is the model's
choice (log entry 7). -/
def Obligations.ConfigurationWrites : Prop :=
  ∀ s : State, busy s = false →
    (∀ x, ∃ t, runMove (.setStrict x) s = .next t ∧ t = { s with ctrl := t.ctrl } ∧
      t.ctrl.toNat = x.toNat ∧ strict t = x) ∧
    (∀ v, ∃ t, runMove (.writeCtrl v) s = .next t ∧ t = { s with ctrl := t.ctrl } ∧
      t.ctrl.getLsbD 0 = v.getLsbD 0 ∧ (∀ b, 0 < b → t.ctrl.getLsbD b = false) ∧
      readReg .ctrl t = t.ctrl.toNat) ∧
    (∀ n, runMove (.setHdrSize n) s = .next { s with hdrSize := n }) ∧
    (∀ r n, runMove (.writeReadOnly r n) s = .next s)

/-- R32: the register numbers 0 to 9, and no register at 10 and above. -/
def Obligations.RegisterNumbers : Prop :=
  [Reg.cmd, .status, .ctrl, .hdrSize, .term, .carLen, .payLen, .bitLen, .outLen, .matchOff].map regNumber =
    [0, 1, 2, 3, 4, 5, 6, 7, 8, 9] ∧
  (∀ r, regOfNumber (regNumber r) = some r) ∧ (∀ n, 10 ≤ n → regOfNumber n = none)

/-- From R20's "written by" column with R21 to R24, R26, R28, R29, R31: which moves can change each piece of the block's state;
the length registers change with their buffers. That a whole-byte write of `CTRL` is a move is the model's choice (log entry 7),
and the last clause is about the model's own field, the list of moves, which every step shortens by one (log entry 2). -/
def Obligations.WhoWritesWhat : Prop :=
  ∀ s t : State, step s = .next t →
    (t.car ≠ s.car → (∃ v, s.host.head? = some (.loadCar v)) ∨ s.host.head? = some .copyOutToCar ∨
      s.host.head? = some .reset) ∧
    (t.out ≠ s.out → s.host.head? = some (.writeCmd 0x03#8) ∨ s.host.head? = some (.writeCmd 0x05#8) ∨
      s.host.head? = some .reset) ∧
    (t.pay ≠ s.pay → (∃ v, s.host.head? = some (.loadPay v)) ∨ s.host.head? = some (.writeCmd 0x02#8) ∨
      s.host.head? = some (.writeCmd 0x06#8) ∨ s.host.head? = some .reset) ∧
    (t.bit ≠ s.bit → (∃ v, s.host.head? = some (.loadBit v)) ∨ s.host.head? = some (.writeCmd 0x01#8) ∨
      s.host.head? = some (.writeCmd 0x04#8) ∨ s.host.head? = some (.writeCmd 0x05#8) ∨
      s.host.head? = some (.writeCmd 0x06#8) ∨ s.host.head? = some .reset) ∧
    (t.matchOff ≠ s.matchOff → s.host.head? = some (.writeCmd 0x02#8) ∨
      s.host.head? = some (.writeCmd 0x06#8) ∨ s.host.head? = some .reset) ∧
    (t.status ≠ s.status → (∃ v, s.host.head? = some (.writeCmd v)) ∨ s.host.head? = some .reset) ∧
    (t.hdrSize ≠ s.hdrSize → (∃ n, s.host.head? = some (.setHdrSize n)) ∨ s.host.head? = some .reset) ∧
    (t.ctrl ≠ s.ctrl → (∃ x, s.host.head? = some (.setStrict x)) ∨ (∃ v, s.host.head? = some (.writeCtrl v)) ∨
      s.host.head? = some .reset) ∧
    t.host = s.host.tail

/-! ## Reset -/

/-- R38: every piece of state after reset; the engine is idle. -/
def Obligations.ResetValues : Prop :=
  (readReg .carLen State.reset = 0 ∧ readReg .outLen State.reset = 0 ∧ readReg .payLen State.reset = 0 ∧
    readReg .bitLen State.reset = 0) ∧
  (∀ i, memReadByte .car i State.reset = none ∧ memReadByte .out i State.reset = none ∧
    memReadByte .pay i State.reset = none ∧ memReadBit i State.reset = none) ∧
  readReg .hdrSize State.reset = 54 ∧ readReg .term State.reset = 0xFFFE ∧
  State.reset.ctrl = 0x00#8 ∧ strict State.reset = false ∧
  State.reset.status = 0x00#8 ∧ readReg .cmd State.reset = 0 ∧ readReg .matchOff State.reset = 0 ∧
  busy State.reset = false

/-- From R200: `RESET` restores every piece of the block's state from any state, and only `RESET` makes `STATUS` 0x00 again or, apart from the host's own register writes, changes `HDR_SIZE` or
`CTRL`. Two things are the model's choice: that `RESET` has its effect in states with `BUSY = 1` too (log entry 3), and that the
host's later moves, the model's own field, stay (log entry 2). -/
def Obligations.ResetRestoresAndIsTheOnlyWay : Prop :=
  (∀ s : State, runMove .reset s = .next { State.reset with host := s.host }) ∧
  (∀ (m : HostMove) (s t : State), runMove m s = .next t →
    (s.status ≠ 0x00#8 → t.status = 0x00#8 → m = .reset) ∧
    (t.hdrSize ≠ s.hdrSize → m = .reset ∨ ∃ n, m = .setHdrSize n) ∧
    (t.ctrl ≠ s.ctrl → m = .reset ∨ (∃ x, m = .setStrict x) ∨ ∃ v, m = .writeCtrl v))

/-- From R38 and the command rules: immediately after reset every command is defined, with the result given (70_reset_and_hazards.md §2,
an inference the spec marks [derived]). -/
def Obligations.EveryCommandDefinedAfterReset : Prop :=
  let term := List.replicate 15 true ++ [false]
  exec .pack State.reset = .next { State.reset with bit := term, status := 0x02#8 } ∧
  exec .unpack State.reset = .next { State.reset with status := 0x14#8 } ∧
  exec .embed State.reset = .next { State.reset with status := 0x24#8 } ∧
  exec .extract State.reset = .next { State.reset with status := 0x24#8 } ∧
  exec .encode State.reset = .next { State.reset with bit := term, status := 0x24#8 } ∧
  exec .decode State.reset = .next { State.reset with status := 0x24#8 }

/-! ## PACK -/

/-- R101: `PACK` completes from every state; `BIT` becomes the payload's bits, most significant bit first, then fifteen 1s
and a 0; `STATUS` becomes 0x02; nothing else changes. -/
def Obligations.PackSerializesPayload : Prop :=
  decode 0x01#8 = .ok .pack ∧
  ∀ s : State, ∃ t : State, exec .pack s = .next t ∧
    t = { s with bit := t.bit, status := 0x02#8 } ∧
    t.bit = frame s.pay ∧
    t.bit.length = 8 * s.pay.length + 16 ∧
    (∀ (j : Nat) (x : Byte), s.pay[j]? = some x →
      ∀ b, b < 8 → t.bit[8 * j + b]? = some (x.getLsbD (7 - b))) ∧
    (∀ i, i < 15 → t.bit[8 * s.pay.length + i]? = some true) ∧
    t.bit[8 * s.pay.length + 15]? = some false

/-- From R101, R75, R77: what can be relied on of `pack`, (a) to (e) (40_bit_packer.md, "Properties of `pack` a model can rely on",
an inference the spec marks [derived]). -/
def Obligations.PackProperties : Prop :=
  ∀ p : List Byte,
    (pack p).length = 8 * p.length + 16 ∧
    (∀ (j : Nat) (x : Byte), p[j]? = some x → ∀ b, b < 8 → (pack p)[8 * j + b]? = some (x.getLsbD (7 - b))) ∧
    (pack p).drop ((pack p).length - 16) = List.replicate 15 true ++ [false] ∧
    (unpack (pack p)).isSome = true ∧
    (∀ q, pack p = pack q → p = q) ∧
    (∀ q, (pack (p ++ q)).take ((pack (p ++ q)).length - 16) =
      (pack p).take ((pack p).length - 16) ++ (pack q).take ((pack q).length - 16))

/-- From R101: the serializer circuit (40_bit_packer.md, "Streaming realisation of the serializer", marked [derived]) emits the bits of `pack(PAY)` in index order, one per step, and then nothing. -/
def Obligations.SerializerEmitsPack : Prop :=
  ∀ (p : List Byte) (n : Nat), serializerRun n (serializerStart p) = (pack p).take n

/-! ## UNPACK and the terminator search -/

/-- R104: `FindTerm` is the least offset at which the sixteen bits occur wholly inside the stream, and none where there is no
such offset. -/
def Obligations.FindTermIsLeastOccurrence : Prop :=
  ∀ s : List Bit,
    (∀ k, findTerm s = some k ↔ FirstOccursAt s k) ∧ (findTerm s = none ↔ ∀ k, ¬ OccursAt s k)

/-- From R104, R76: the search by the first 0 preceded by fifteen 1s, and its consequences (40_bit_packer.md, "Equivalent form of
the search", an inference the spec marks [derived]). -/
def Obligations.FindTermAtFirstZero : Prop :=
  (∀ (s : List Bit) (k : Nat), findTerm s = some k ↔
    ZeroAfterFifteenOnes s (k + 15) ∧ ∀ y, y < k + 15 → ¬ ZeroAfterFifteenOnes s y) ∧
  (∀ s : List Bit, findTerm s = none ↔ ∀ y, ¬ ZeroAfterFifteenOnes s y) ∧
  (∀ (r : Nat) (rest : List Bit), 15 ≤ r →
    findTerm (List.replicate r true ++ false :: rest) = some (r - 15)) ∧
  (∀ (s : List Bit) (i j : Nat), OccursAt s i → OccursAt s j → i < j → i + 16 ≤ j) ∧
  (∀ u rest : List Bit, (∀ y, ¬ ZeroAfterFifteenOnes u y) → findTerm (u ++ (termBits ++ rest)) = some u.length)

/-- R103: `UNPACK` completes from every state. With a terminator, first at `k`, `PAY` becomes the `k div 8` whole bytes before
it, `MATCH_OFF` becomes `k`, `STATUS` 0x02; with none, only `STATUS` changes, to 0x14. -/
def Obligations.UnpackReturnsBytesBeforeTerminator : Prop :=
  decode 0x02#8 = .ok .unpack ∧
  ∀ s : State,
    (∀ k, FirstOccursAt s.bit k → ∃ t : State, exec .unpack s = .next t ∧
      t = { s with pay := t.pay, matchOff := k, status := 0x02#8 } ∧
      t.pay.length = k / 8 ∧
      ∀ (j : Nat) (x : Byte), t.pay[j]? = some x →
        ∀ b, b < 8 → s.bit[8 * j + b]? = some (x.getLsbD (7 - b))) ∧
    ((∀ k, ¬ OccursAt s.bit k) → exec .unpack s = .next { s with status := 0x14#8 })

/-- From R79, R103 corner case 4: bits after the first terminator, whatever they are, do not change the result. -/
def Obligations.BitsAfterTerminatorIgnored : Prop :=
  ∀ (s u : List Bit) (r : List Byte × Nat), unpack s = some r → unpack (s ++ u) = some r

/-- From R103, R104: the one-pass shift-window detector computes exactly `unpack` (40_bit_packer.md, "Streaming (shift-window)
realisation of the detector", an inference the spec marks [derived]). The shape of the machine's registers is the model's (log
entry 12). -/
def Obligations.StreamingDetectorIsUnpack : Prop :=
  ∀ s : List Bit, streamUnpack s = unpack s

/-- From R104: when a payload's own bits trigger the detector, and what is then returned (40_bit_packer.md, "Collision", an inference
the spec marks [derived]). -/
def Obligations.CollisionTruncatesEarly : Prop :=
  (∀ p : List Byte,
    (findTerm (pack p) = some (8 * p.length) ↔ NoCollision p) ∧
    (∀ z, ZeroAfterFifteenOnes (payloadBits p) z → (∀ y, y < z → ¬ ZeroAfterFifteenOnes (payloadBits p) y) →
      z < 8 * p.length ∧ unpack (pack p) = some (p.take ((z - 15) / 8), z - 15)) ∧
    (∀ y, 8 * p.length ≤ y → y < 8 * p.length + 15 → ¬ ZeroAfterFifteenOnes (pack p) y)) ∧
  unpack (pack [0xFF#8, 0xFE#8]) = some ([], 0) ∧
  unpack (pack [0x7F#8, 0xFF#8, 0x00#8]) = some ([], 1) ∧
  unpack (pack [0x41#8, 0xFF#8, 0xFE#8, 0x42#8]) = some ([0x41#8], 8) ∧
  unpack (pack [0x01#8, 0xFF#8, 0xFC#8]) = some ([], 7)

/-- From R101, R103 (40_bit_packer.md, "Round trip of the family", an inference the spec marks [derived]): `PACK; UNPACK` from every state ends in success with a prefix of the payload, the whole of it exactly under the
no-collision condition; the same of the functions. -/
def Obligations.PackThenUnpack : Prop :=
  (∀ p, NoCollision p → unpack (pack p) = some (p, 8 * p.length)) ∧
  unpack (pack []) = some ([], 0) ∧
  (∀ p, ∃ q k, unpack (pack p) = some (q, k) ∧ q <+: p) ∧
  (∀ s : State, ∃ s₁ s₂ : State, exec .pack s = .next s₁ ∧ exec .unpack s₁ = .next s₂ ∧
    s₂ = { s with bit := pack s.pay, pay := s₂.pay, matchOff := s₂.matchOff, status := 0x02#8 } ∧
    s₂.pay <+: s.pay ∧ (s₂.pay = s.pay ↔ NoCollision s.pay) ∧
    (NoCollision s.pay → s₂.matchOff = 8 * s.pay.length))

/-- From R104 (70_reset_and_hazards.md, "Terminator collision", an inference the spec marks [derived]): a payload every byte of which is below 0x80 never collides. -/
def Obligations.SevenBitTextNeverCollides : Prop :=
  ∀ p : List Byte, (∀ x, x ∈ p → x.toNat < 0x80) → NoCollision p

/-! ## EMBED -/

/-- R122: `MuxLSB` bit by bit, its equivalent forms, and the spec's examples. -/
def Obligations.MuxLSBForms : Prop :=
  (∀ (c : Byte) (x : Bit),
    muxLSB c x = (c &&& 0xFE#8) ||| (if x then 1#8 else 0#8) ∧
    (muxLSB c x).getLsbD 0 = x ∧ (∀ b, 0 < b → (muxLSB c x).getLsbD b = c.getLsbD b) ∧
    (muxLSB c x).toNat = c.toNat - (c.getLsbD 0).toNat + x.toNat ∧
    (muxLSB c x).toNat = 2 * (c.toNat / 2) + x.toNat ∧
    muxLSB c (c.getLsbD 0) = c ∧
    (c.getLsbD 0 = x → muxLSB c x = c) ∧
    (c.getLsbD 0 = false → x = true → (muxLSB c x).toNat = c.toNat + 1) ∧
    (c.getLsbD 0 = true → x = false → (muxLSB c x).toNat + 1 = c.toNat)) ∧
  muxLSB 0xFF#8 false = 0xFE#8 ∧ muxLSB 0xFE#8 true = 0xFF#8 ∧ muxLSB 0x00#8 true = 0x01#8 ∧
  muxLSB 0x80#8 true = 0x81#8 ∧ muxLSB 0x7F#8 false = 0x7E#8

/-- R121: `EMBED` completes from every state: the two checks in their order, and on success `OUT` byte by byte, `STATUS` with
`TRUNC`, and nothing else changed. -/
def Obligations.EmbedMultiplexesBits : Prop :=
  decode 0x03#8 = .ok .embed ∧
  ∀ s : State,
    (s.car.length < s.hdrSize → exec .embed s = .next { s with status := 0x24#8 }) ∧
    (s.hdrSize ≤ s.car.length → s.ctrl.getLsbD 0 = true → s.car.length - s.hdrSize < s.bit.length →
      exec .embed s = .next { s with status := 0x34#8 }) ∧
    (s.hdrSize ≤ s.car.length → (s.ctrl.getLsbD 0 = false ∨ s.bit.length ≤ s.car.length - s.hdrSize) →
      ∃ t : State, exec .embed s = .next t ∧
        t = { s with
          out := t.out
          status := if s.car.length - s.hdrSize < s.bit.length then 0x0A#8 else 0x02#8 } ∧
        t.out.length = s.car.length ∧
        (∀ a, a < s.hdrSize → t.out[a]? = s.car[a]?) ∧
        (∀ (i : Nat) (c : Byte) (x : Bit), s.car[s.hdrSize + i]? = some c → s.bit[i]? = some x →
          t.out[s.hdrSize + i]? = some ((c &&& 0xFE#8) ||| (if x then 1#8 else 0#8))) ∧
        (∀ i, s.bit.length ≤ i → t.out[s.hdrSize + i]? = s.car[s.hdrSize + i]?))

/-- R123: the capacity policy in both modes, and that the modes agree where the bits fit. -/
def Obligations.CapacityPolicy : Prop :=
  ∀ s : State, s.hdrSize ≤ s.car.length →
    (s.car.length - s.hdrSize < s.bit.length → s.ctrl.getLsbD 0 = false →
      exec .embed s = .next { s with
        out := embed s.hdrSize s.car (s.bit.take (s.car.length - s.hdrSize))
        status := 0x0A#8 }) ∧
    (s.car.length - s.hdrSize < s.bit.length → s.ctrl.getLsbD 0 = true →
      exec .embed s = .next { s with status := 0x34#8 }) ∧
    (s.bit.length ≤ s.car.length - s.hdrSize → ∃ (o : List Byte) (st : BitVec 8), ∀ c : BitVec 8,
      exec .embed { s with ctrl := c } = .next { s with ctrl := c, out := o, status := st })

/-- From R121, R122: the laws (a) to (d) of `embed` (41_carrier_codec.md, "`embed` laws", an inference the spec marks [derived]). -/
def Obligations.EmbedLaws : Prop :=
  ∀ (h : Nat) (img : List Byte) (s t : List Bit), h ≤ img.length →
    embed h img (extract h img) = img ∧
    embed h (embed h img s) s = embed h img s ∧
    (min s.length (img.length - h) ≤ t.length → embed h (embed h img s) t = embed h img t) ∧
    (∀ (i : Nat) (x : Bit), t.length ≤ i → i < min s.length (img.length - h) → s[i]? = some x →
      ((embed h (embed h img s) t)[h + i]?).map (fun y => y.getLsbD 0) = some x) ∧
    (∀ a : Nat, ((embed h img s)[a]?).map (fun y : Byte => y >>> 1) = (img[a]?).map (fun y : Byte => y >>> 1))

/-! ## EXTRACT -/

/-- R125: `EXTRACT` completes from every state; on success `BIT` is bit 0 of each pixel byte in order, and nothing but `BIT`
and `STATUS` changes. -/
def Obligations.ExtractTakesLowBits : Prop :=
  decode 0x04#8 = .ok .extract ∧
  ∀ s : State,
    (s.car.length < s.hdrSize → exec .extract s = .next { s with status := 0x24#8 }) ∧
    (s.hdrSize ≤ s.car.length → ∃ t : State, exec .extract s = .next t ∧
      t = { s with bit := t.bit, status := 0x02#8 } ∧
      t.bit.length = s.car.length - s.hdrSize ∧
      ∀ (i : Nat) (c : Byte), s.car[s.hdrSize + i]? = some c → t.bit[i]? = some (c.getLsbD 0))

/-- From R121, R122, R125: what `extract` reads back after `embed` (41_carrier_codec.md, "`extract` after `embed`", an inference the
spec marks [derived]). -/
def Obligations.ExtractAfterEmbed : Prop :=
  ∀ (h : Nat) (img : List Byte) (s : List Bit), h ≤ img.length →
    (extract h (embed h img s)).length = img.length - h ∧
    (∀ i, i < min s.length (img.length - h) → (extract h (embed h img s))[i]? = s[i]?) ∧
    (∀ i, s.length ≤ i → (extract h (embed h img s))[i]? = (img[h + i]?).map (fun y => y.getLsbD 0)) ∧
    (s.length ≤ img.length - h → extract h (embed h img s) = s ++ (extract h img).drop s.length) ∧
    (img.length - h < s.length → extract h (embed h img s) = s.take (img.length - h))

/-- From R103, R125 (70_reset_and_hazards.md, "Header size mismatch", an inference the spec marks [derived]): a header size larger by `8*e` at decode loses the first `e` payload bytes and keeps the rest. -/
def Obligations.HeaderSizeMismatch : Prop :=
  ∀ (h e : Nat) (c : List Byte) (p : List Byte) (k : Nat), h + 8 * e ≤ c.length →
    unpack (extract h c) = some (p, k) → 8 * e ≤ k →
    unpack (extract (h + 8 * e) c) = some (p.drop e, k - 8 * e)

/-! ## ENCODE and DECODE -/

/-- R140: `ENCODE` completes from every state and is exactly `PACK` then `EMBED`, errors included; the results, errors and
`STATUS` in its own terms. -/
def Obligations.EncodeIsPackThenEmbed : Prop :=
  decode 0x05#8 = .ok .encode ∧
  ∀ s : State,
    (∃ s₁ : State, exec .pack s = .next s₁ ∧ exec .encode s = exec .embed s₁) ∧
    (s.car.length < s.hdrSize → exec .encode s = .next { s with bit := frame s.pay, status := 0x24#8 }) ∧
    (s.hdrSize ≤ s.car.length → s.ctrl.getLsbD 0 = true → s.car.length - s.hdrSize < 8 * s.pay.length + 16 →
      exec .encode s = .next { s with bit := frame s.pay, status := 0x34#8 }) ∧
    (s.hdrSize ≤ s.car.length →
      (s.ctrl.getLsbD 0 = false ∨ 8 * s.pay.length + 16 ≤ s.car.length - s.hdrSize) →
      exec .encode s = .next { s with
        bit := frame s.pay
        out := embed s.hdrSize s.car (frame s.pay)
        status := if s.car.length - s.hdrSize < 8 * s.pay.length + 16 then 0x0A#8 else 0x02#8 })

/-- R141: `DECODE` completes from every state and is exactly `EXTRACT` then, only if that succeeded, `UNPACK`; the results,
errors and `STATUS` in its own terms. -/
def Obligations.DecodeIsExtractThenUnpack : Prop :=
  decode 0x06#8 = .ok .decode ∧
  ∀ s : State,
    (∃ s₁ : State, exec .extract s = .next s₁ ∧
      (statusDone s₁.status = true → exec .decode s = exec .unpack s₁) ∧
      (statusDone s₁.status = false → exec .decode s = .next s₁)) ∧
    (s.car.length < s.hdrSize → exec .decode s = .next { s with status := 0x24#8 }) ∧
    (s.hdrSize ≤ s.car.length → ∀ k, FirstOccursAt (extract s.hdrSize s.car) k →
      ∃ p : List Byte, unpack (extract s.hdrSize s.car) = some (p, k) ∧ p.length = k / 8 ∧
        exec .decode s = .next { s with
          bit := extract s.hdrSize s.car, pay := p, matchOff := k, status := 0x02#8 }) ∧
    (s.hdrSize ≤ s.car.length → (∀ k, ¬ OccursAt (extract s.hdrSize s.car) k) →
      exec .decode s = .next { s with bit := extract s.hdrSize s.car, status := 0x14#8 })

/-- From R75, R123 (42_composite.md, "Capacity", an inference the spec marks [derived]): an `ENCODE` ends untruncated and without error iff the payload has at most `(P - 16) div 8` bytes and `P >= 16`. -/
def Obligations.EncodeCapacity : Prop :=
  ∀ s : State, s.hdrSize ≤ s.car.length → ∃ t : State, exec .encode s = .next t ∧
    (t.status = 0x02#8 ↔
      16 ≤ s.car.length - s.hdrSize ∧ s.pay.length ≤ (s.car.length - s.hdrSize - 16) / 8)

/-- From R82, R75, R121 (30_encoding.md, "Embedded layout end to end", an inference the spec marks [derived]): the bit-0 plane of the pixel region after an `ENCODE` that fits: the payload's bits, the terminator, then
the carrier's own low bits. -/
def Obligations.EncodedBitPlane : Prop :=
  ∀ s : State, s.hdrSize ≤ s.car.length → 8 * s.pay.length + 16 ≤ s.car.length - s.hdrSize →
    ∃ t : State, exec .encode s = .next t ∧
      (t.out.drop s.hdrSize).map (fun y => y.getLsbD 0) =
        payloadBits s.pay ++ (List.replicate 15 true ++ [false]) ++
          ((s.car.drop s.hdrSize).map (fun y => y.getLsbD 0)).drop (8 * s.pay.length + 16)

/-- From R103, R140, R141 (42_composite.md, "Round trip", an inference the spec marks [derived]; the moves are taken from the
model's list of moves, log entry 2): the round trip, of the functions and of the five host moves, in either mode; without the no-collision condition the
result is the prefix before the first terminator, never `NoMarkerFound`. -/
def Obligations.EncodeCopyDecodeRoundTrip : Prop :=
  (∀ (h : Nat) (c p : List Byte), h ≤ c.length → 8 * p.length + 16 ≤ c.length - h → NoCollision p →
    unpack (extract h (embed h c (pack p))) = some (p, 8 * p.length)) ∧
  (∀ (s : State) (c p : List Byte), busy s = false → s.hdrSize ≤ c.length →
    8 * p.length + 16 ≤ c.length - s.hdrSize →
    ∃ t : State,
      Host.Core.run Sys2Proof.core 5 { s with
        host := [.loadCar c, .loadPay p, .writeCmd 0x05#8, .copyOutToCar, .writeCmd 0x06#8] } = .next t ∧
      t.status = 0x02#8 ∧ findTerm (pack p) = some t.matchOff ∧ t.pay = p.take (t.matchOff / 8) ∧
      (NoCollision p → t.pay = p ∧ t.matchOff = 8 * p.length))

/-- From R104, R123, R140, R141 (42_composite.md, "Truncated round trip", an inference the spec marks [derived]): a truncated embedding holds the first `P` bits of the frame; decoding it raises `NoMarkerFound` unless those bits
hold a terminator, which no collision-free payload's do, and otherwise returns the prefix before it. -/
def Obligations.TruncatedRoundTrip : Prop :=
  ∀ s : State, s.ctrl.getLsbD 0 = false → s.hdrSize ≤ s.car.length →
    s.car.length - s.hdrSize < 8 * s.pay.length + 16 →
    ∃ t₁ t₂ : State, exec .encode s = .next t₁ ∧ t₁.status = 0x0A#8 ∧
      extract s.hdrSize t₁.out = (pack s.pay).take (s.car.length - s.hdrSize) ∧
      exec .decode (moveCopyOutToCar t₁) = .next t₂ ∧
      ((∀ k, ¬ OccursAt ((pack s.pay).take (s.car.length - s.hdrSize)) k) → t₂.status = 0x14#8) ∧
      (NoCollision s.pay → t₂.status = 0x14#8) ∧
      (∀ k, FirstOccursAt ((pack s.pay).take (s.car.length - s.hdrSize)) k →
        t₂.status = 0x02#8 ∧ t₂.matchOff = k ∧ t₂.pay = s.pay.take (k / 8))

/-! ## Errors and STATUS -/

/-- R178: the checks are made in a fixed order and the first that fails is the one reported. -/
def Obligations.ErrorPriority : Prop :=
  (∀ (v : Byte) (s : State), ¬ (1 ≤ v.toNat ∧ v.toNat ≤ 6) → ∃ t, issueCommand v s = .next t ∧ t.status = 0x44#8) ∧
  (∀ (i : Instr) (s : State), i ∈ [Instr.embed, .extract, .encode, .decode] → s.car.length < s.hdrSize →
    ∃ t, exec i s = .next t ∧ t.status = 0x24#8) ∧
  (∀ s : State, s.hdrSize ≤ s.car.length → s.ctrl.getLsbD 0 = true →
    (s.car.length - s.hdrSize < s.bit.length → ∃ t, exec .embed s = .next t ∧ t.status = 0x34#8) ∧
    (s.car.length - s.hdrSize < 8 * s.pay.length + 16 → ∃ t, exec .encode s = .next t ∧ t.status = 0x34#8)) ∧
  (∀ s : State, s.hdrSize ≤ s.car.length → (∀ k, ¬ OccursAt (extract s.hdrSize s.car) k) →
    ∃ t, exec .decode s = .next t ∧ t.status = 0x14#8) ∧
  (∀ (i : Instr) (s s' t t' : State), exec i s = .next t → exec i s' = .next t' →
    ¬ (t.status = 0x34#8 ∧ t'.status = 0x14#8))

/-- R177: what each error leaves unchanged; only `STATUS` changes, but for the first half's `BIT` in `ENCODE` and in a `DECODE`
that ends with `NoMarkerFound`. -/
def Obligations.ErrorsCommitNothing : Prop :=
  (∀ (v : Byte) (s : State), ¬ (1 ≤ v.toNat ∧ v.toNat ≤ 6) →
    issueCommand v s = .next { s with status := 0x44#8 }) ∧
  (∀ (i : Instr) (s t : State), exec i s = .next t → t.status.getLsbD 2 = true →
    (i ≠ .encode → i ≠ .decode → t = { s with status := t.status }) ∧
    (i = .encode → t = { s with status := t.status, bit := frame s.pay }) ∧
    (i = .decode → t.status = 0x24#8 → t = { s with status := t.status }) ∧
    (i = .decode → t.status = 0x14#8 → t = { s with status := t.status, bit := extract s.hdrSize s.car }) ∧
    (i = .decode → t.status = 0x24#8 ∨ t.status = 0x14#8))

/-- From R170 (60_exceptions.md §4, "Which command can end in which status", an inference the spec marks [derived]): the statuses each command can end in, each of them reached from some state; truncation only with `STRICT = 0`,
`InsufficientCapacity` only with `STRICT = 1`; an illegal byte ends in 0x44 only. -/
def Obligations.StatusOfEachCommand : Prop :=
  (∀ (i : Instr) (s : State), ∃ t, exec i s = .next t ∧ t.status ∈ statusesOf i ∧
    (t.status = 0x0A#8 → s.ctrl.getLsbD 0 = false) ∧ (t.status = 0x34#8 → s.ctrl.getLsbD 0 = true)) ∧
  (∀ (i : Instr) (v : BitVec 8), v ∈ statusesOf i → ∃ s t, exec i s = .next t ∧ t.status = v) ∧
  (∀ (v : Byte) (s t : State), ¬ (1 ≤ v.toNat ∧ v.toNat ≤ 6) → issueCommand v s = .next t → t.status = 0x44#8)

/-- From R29: after a write of any byte to `CMD`: not busy, exactly one of `DONE` and `ERR`, `ECODE = 0` iff `ERR = 0` and at most
4, `TRUNC = 1` exactly for an `EMBED` or `ENCODE` that completed with more stream bits than pixel bytes, bit 7 zero. -/
def Obligations.StatusAfterAnyCommand : Prop :=
  ∀ (v : Byte) (s : State), ∃ t, issueCommand v s = .next t ∧
    statusBusy t.status = false ∧ t.status.getLsbD 7 = false ∧
    (statusDone t.status = true ↔ statusErr t.status = false) ∧
    (statusEcode t.status = 0#3 ↔ statusErr t.status = false) ∧ (statusEcode t.status).toNat ≤ 4 ∧
    (statusTrunc t.status = true ↔
      statusDone t.status = true ∧
        ((v = 0x03#8 ∧ s.car.length - s.hdrSize < s.bit.length) ∨
          (v = 0x05#8 ∧ s.car.length - s.hdrSize < 8 * s.pay.length + 16)))

/-- From R101, R103, R121, R125 (10_state.md §6, an inference the spec marks [derived]): what a success leaves true of the lengths. -/
def Obligations.LengthsAfterSuccess : Prop :=
  ∀ (i : Instr) (s t : State), exec i s = .next t → t.status.getLsbD 1 = true →
    (i = .embed ∨ i = .encode → outLen t = carLen t) ∧
    (i = .pack → bitLen t = 8 * payLen t + 16) ∧
    (i = .extract → bitLen t = carLen t - t.hdrSize) ∧
    (i = .unpack → payLen t = t.matchOff / 8 ∧ t.matchOff + 16 ≤ bitLen t)

/-! ## All commands -/

/-- From R58, R60, R73 and R20, R22, R31: everything every command leaves unchanged: `CAR`, `HDR_SIZE`, `CTRL` by all; `OUT` by
all but `EMBED`, `ENCODE`; `PAY` and `MATCH_OFF` by all but `UNPACK`, `DECODE`; `BIT` by `UNPACK` and `EMBED`; element by
element. That a command leaves the list of the host's later moves as it is is said of the model's own field (log entry 2). -/
def Obligations.CommandFrames : Prop :=
  ∀ (i : Instr) (s : State), ∃ t, exec i s = .next t ∧
    (∀ a, memReadByte .car a t = memReadByte .car a s) ∧ carLen t = carLen s ∧
    t.hdrSize = s.hdrSize ∧ t.ctrl = s.ctrl ∧ t.host = s.host ∧
    (i ≠ .embed → i ≠ .encode → (∀ a, memReadByte .out a t = memReadByte .out a s) ∧ outLen t = outLen s) ∧
    (i ≠ .unpack → i ≠ .decode →
      (∀ a, memReadByte .pay a t = memReadByte .pay a s) ∧ payLen t = payLen s ∧ t.matchOff = s.matchOff) ∧
    (i = .unpack ∨ i = .embed → (∀ a, memReadBit a t = memReadBit a s) ∧ bitLen t = bitLen s)

/-- From R60, R153 (20_memory.md §4, "Reads have no side effects", an inference the spec marks [derived]): reads have no side effect, and every command repeated at once rewrites the same values. -/
def Obligations.CommandsIdempotent : Prop :=
  (∀ (r : ReadTarget) (s : State), idleMove (.read r) s = .next s) ∧
  (∀ (i : Instr) (s : State), ∃ t, exec i s = .next t ∧ exec i t = .next t)

/-- From R29, R59, R73, R156 (10_state.md "Flags" and 20_memory.md "Reads have no side effects", inferences the spec marks
[derived]): a command's behaviour depends only on its own inputs, R73's list for that command, never on `STATUS`,
`MATCH_OFF`, `OUT`, another command's inputs or what ran before: two states that agree on the command's inputs end with the
same status, and each buffer and `MATCH_OFF` either gets the same value in both or stays as each state had it. -/
def Obligations.CommandsReadNoFlag : Prop :=
  ∀ (i : Instr) (s₁ s₂ : State), SameInputs i s₁ s₂ →
    ∃ t₁ t₂, exec i s₁ = .next t₁ ∧ exec i s₂ = .next t₂ ∧ t₁.status = t₂.status ∧
      (t₁.bit = t₂.bit ∨ (t₁.bit = s₁.bit ∧ t₂.bit = s₂.bit)) ∧
      (t₁.pay = t₂.pay ∨ (t₁.pay = s₁.pay ∧ t₂.pay = s₂.pay)) ∧
      (t₁.out = t₂.out ∨ (t₁.out = s₁.out ∧ t₂.out = s₂.out)) ∧
      (t₁.matchOff = t₂.matchOff ∨ (t₁.matchOff = s₁.matchOff ∧ t₂.matchOff = s₂.matchOff))

/-! ## The invariant -/

/-- From R38 (10_state.md §6): the machine right after reset meets the invariant. -/
def Obligations.ResetMeetsInvariant : Prop := Inv State.reset

/-- From R29 (10_state.md §6, 60_exceptions.md §4, inferences the spec marks [derived]): every step keeps the invariant, whatever the host's moves. -/
def Obligations.StepKeepsInvariant : Prop :=
  ∀ s t : State, Inv s → step s = .next t → Inv t

/-- From R213 (60_exceptions.md §4, "Exhaustiveness", an inference the spec marks [derived]): under the invariant every step, every command of it, completes: no fault, no refusal. -/
def Obligations.EveryStepCompletes : Prop :=
  ∀ s : State, Inv s → ∃ t, step s = .next t
end

