-- ==== Sys2Proof/Laws/State.lean ====
section
/-! SUPPORT. One lemma per field per state update, so that no later proof unfolds a record update. -/

namespace Sys2Proof.Machine

@[simp] theorem commit_car (b : Bool) (s : State) : (commit b s).car = s.car := rfl
@[simp] theorem commit_out (b : Bool) (s : State) : (commit b s).out = s.out := rfl
@[simp] theorem commit_pay (b : Bool) (s : State) : (commit b s).pay = s.pay := rfl
@[simp] theorem commit_bit (b : Bool) (s : State) : (commit b s).bit = s.bit := rfl
@[simp] theorem commit_hdrSize (b : Bool) (s : State) : (commit b s).hdrSize = s.hdrSize := rfl
@[simp] theorem commit_ctrl (b : Bool) (s : State) : (commit b s).ctrl = s.ctrl := rfl
@[simp] theorem commit_status (b : Bool) (s : State) : (commit b s).status = statusSuccess b := rfl
@[simp] theorem commit_matchOff (b : Bool) (s : State) : (commit b s).matchOff = s.matchOff := rfl
@[simp] theorem commit_host (b : Bool) (s : State) : (commit b s).host = s.host := rfl

@[simp] theorem raise_car (e : CmdError) (s : State) : (raise e s).car = s.car := rfl
@[simp] theorem raise_out (e : CmdError) (s : State) : (raise e s).out = s.out := rfl
@[simp] theorem raise_pay (e : CmdError) (s : State) : (raise e s).pay = s.pay := rfl
@[simp] theorem raise_bit (e : CmdError) (s : State) : (raise e s).bit = s.bit := rfl
@[simp] theorem raise_hdrSize (e : CmdError) (s : State) : (raise e s).hdrSize = s.hdrSize := rfl
@[simp] theorem raise_ctrl (e : CmdError) (s : State) : (raise e s).ctrl = s.ctrl := rfl
@[simp] theorem raise_status (e : CmdError) (s : State) : (raise e s).status = statusError e := rfl
@[simp] theorem raise_matchOff (e : CmdError) (s : State) : (raise e s).matchOff = s.matchOff := rfl
@[simp] theorem raise_host (e : CmdError) (s : State) : (raise e s).host = s.host := rfl

@[simp] theorem packHalf_car (s : State) : (packHalf s).car = s.car := rfl
@[simp] theorem packHalf_out (s : State) : (packHalf s).out = s.out := rfl
@[simp] theorem packHalf_pay (s : State) : (packHalf s).pay = s.pay := rfl
@[simp] theorem packHalf_bit (s : State) : (packHalf s).bit = pack s.pay := rfl
@[simp] theorem packHalf_hdrSize (s : State) : (packHalf s).hdrSize = s.hdrSize := rfl
@[simp] theorem packHalf_ctrl (s : State) : (packHalf s).ctrl = s.ctrl := rfl
@[simp] theorem packHalf_status (s : State) : (packHalf s).status = s.status := rfl
@[simp] theorem packHalf_matchOff (s : State) : (packHalf s).matchOff = s.matchOff := rfl
@[simp] theorem packHalf_host (s : State) : (packHalf s).host = s.host := rfl

@[simp] theorem moveLoadCar_car (v : List Byte) (s : State) : (moveLoadCar v s).car = v := rfl
@[simp] theorem moveLoadCar_out (v : List Byte) (s : State) : (moveLoadCar v s).out = s.out := rfl
@[simp] theorem moveLoadCar_pay (v : List Byte) (s : State) : (moveLoadCar v s).pay = s.pay := rfl
@[simp] theorem moveLoadCar_bit (v : List Byte) (s : State) : (moveLoadCar v s).bit = s.bit := rfl
@[simp] theorem moveLoadCar_hdrSize (v : List Byte) (s : State) : (moveLoadCar v s).hdrSize = s.hdrSize := rfl
@[simp] theorem moveLoadCar_ctrl (v : List Byte) (s : State) : (moveLoadCar v s).ctrl = s.ctrl := rfl
@[simp] theorem moveLoadCar_status (v : List Byte) (s : State) : (moveLoadCar v s).status = s.status := rfl
@[simp] theorem moveLoadCar_matchOff (v : List Byte) (s : State) : (moveLoadCar v s).matchOff = s.matchOff := rfl
@[simp] theorem moveLoadCar_host (v : List Byte) (s : State) : (moveLoadCar v s).host = s.host := rfl

@[simp] theorem moveLoadPay_car (v : List Byte) (s : State) : (moveLoadPay v s).car = s.car := rfl
@[simp] theorem moveLoadPay_out (v : List Byte) (s : State) : (moveLoadPay v s).out = s.out := rfl
@[simp] theorem moveLoadPay_pay (v : List Byte) (s : State) : (moveLoadPay v s).pay = v := rfl
@[simp] theorem moveLoadPay_bit (v : List Byte) (s : State) : (moveLoadPay v s).bit = s.bit := rfl
@[simp] theorem moveLoadPay_hdrSize (v : List Byte) (s : State) : (moveLoadPay v s).hdrSize = s.hdrSize := rfl
@[simp] theorem moveLoadPay_ctrl (v : List Byte) (s : State) : (moveLoadPay v s).ctrl = s.ctrl := rfl
@[simp] theorem moveLoadPay_status (v : List Byte) (s : State) : (moveLoadPay v s).status = s.status := rfl
@[simp] theorem moveLoadPay_matchOff (v : List Byte) (s : State) : (moveLoadPay v s).matchOff = s.matchOff := rfl
@[simp] theorem moveLoadPay_host (v : List Byte) (s : State) : (moveLoadPay v s).host = s.host := rfl

@[simp] theorem moveLoadBit_car (v : List Bit) (s : State) : (moveLoadBit v s).car = s.car := rfl
@[simp] theorem moveLoadBit_out (v : List Bit) (s : State) : (moveLoadBit v s).out = s.out := rfl
@[simp] theorem moveLoadBit_pay (v : List Bit) (s : State) : (moveLoadBit v s).pay = s.pay := rfl
@[simp] theorem moveLoadBit_bit (v : List Bit) (s : State) : (moveLoadBit v s).bit = v := rfl
@[simp] theorem moveLoadBit_hdrSize (v : List Bit) (s : State) : (moveLoadBit v s).hdrSize = s.hdrSize := rfl
@[simp] theorem moveLoadBit_ctrl (v : List Bit) (s : State) : (moveLoadBit v s).ctrl = s.ctrl := rfl
@[simp] theorem moveLoadBit_status (v : List Bit) (s : State) : (moveLoadBit v s).status = s.status := rfl
@[simp] theorem moveLoadBit_matchOff (v : List Bit) (s : State) : (moveLoadBit v s).matchOff = s.matchOff := rfl
@[simp] theorem moveLoadBit_host (v : List Bit) (s : State) : (moveLoadBit v s).host = s.host := rfl

@[simp] theorem moveCopyOutToCar_car (s : State) : (moveCopyOutToCar s).car = s.out := rfl
@[simp] theorem moveCopyOutToCar_out (s : State) : (moveCopyOutToCar s).out = s.out := rfl
@[simp] theorem moveCopyOutToCar_pay (s : State) : (moveCopyOutToCar s).pay = s.pay := rfl
@[simp] theorem moveCopyOutToCar_bit (s : State) : (moveCopyOutToCar s).bit = s.bit := rfl
@[simp] theorem moveCopyOutToCar_hdrSize (s : State) : (moveCopyOutToCar s).hdrSize = s.hdrSize := rfl
@[simp] theorem moveCopyOutToCar_ctrl (s : State) : (moveCopyOutToCar s).ctrl = s.ctrl := rfl
@[simp] theorem moveCopyOutToCar_status (s : State) : (moveCopyOutToCar s).status = s.status := rfl
@[simp] theorem moveCopyOutToCar_matchOff (s : State) : (moveCopyOutToCar s).matchOff = s.matchOff := rfl
@[simp] theorem moveCopyOutToCar_host (s : State) : (moveCopyOutToCar s).host = s.host := rfl

@[simp] theorem moveWriteCtrl_car (v : Byte) (s : State) : (moveWriteCtrl v s).car = s.car := rfl
@[simp] theorem moveWriteCtrl_out (v : Byte) (s : State) : (moveWriteCtrl v s).out = s.out := rfl
@[simp] theorem moveWriteCtrl_pay (v : Byte) (s : State) : (moveWriteCtrl v s).pay = s.pay := rfl
@[simp] theorem moveWriteCtrl_bit (v : Byte) (s : State) : (moveWriteCtrl v s).bit = s.bit := rfl
@[simp] theorem moveWriteCtrl_hdrSize (v : Byte) (s : State) : (moveWriteCtrl v s).hdrSize = s.hdrSize := rfl
@[simp] theorem moveWriteCtrl_ctrl (v : Byte) (s : State) : (moveWriteCtrl v s).ctrl = ctrlWritten v := rfl
@[simp] theorem moveWriteCtrl_status (v : Byte) (s : State) : (moveWriteCtrl v s).status = s.status := rfl
@[simp] theorem moveWriteCtrl_matchOff (v : Byte) (s : State) : (moveWriteCtrl v s).matchOff = s.matchOff := rfl
@[simp] theorem moveWriteCtrl_host (v : Byte) (s : State) : (moveWriteCtrl v s).host = s.host := rfl

@[simp] theorem moveSetStrict_car (x : Bit) (s : State) : (moveSetStrict x s).car = s.car := rfl
@[simp] theorem moveSetStrict_out (x : Bit) (s : State) : (moveSetStrict x s).out = s.out := rfl
@[simp] theorem moveSetStrict_pay (x : Bit) (s : State) : (moveSetStrict x s).pay = s.pay := rfl
@[simp] theorem moveSetStrict_bit (x : Bit) (s : State) : (moveSetStrict x s).bit = s.bit := rfl
@[simp] theorem moveSetStrict_hdrSize (x : Bit) (s : State) : (moveSetStrict x s).hdrSize = s.hdrSize := rfl
@[simp] theorem moveSetStrict_ctrl (x : Bit) (s : State) : (moveSetStrict x s).ctrl = ctrlWritten (bitByte x) := rfl
@[simp] theorem moveSetStrict_status (x : Bit) (s : State) : (moveSetStrict x s).status = s.status := rfl
@[simp] theorem moveSetStrict_matchOff (x : Bit) (s : State) : (moveSetStrict x s).matchOff = s.matchOff := rfl
@[simp] theorem moveSetStrict_host (x : Bit) (s : State) : (moveSetStrict x s).host = s.host := rfl

@[simp] theorem moveSetHdrSize_car (n : Nat) (s : State) : (moveSetHdrSize n s).car = s.car := rfl
@[simp] theorem moveSetHdrSize_out (n : Nat) (s : State) : (moveSetHdrSize n s).out = s.out := rfl
@[simp] theorem moveSetHdrSize_pay (n : Nat) (s : State) : (moveSetHdrSize n s).pay = s.pay := rfl
@[simp] theorem moveSetHdrSize_bit (n : Nat) (s : State) : (moveSetHdrSize n s).bit = s.bit := rfl
@[simp] theorem moveSetHdrSize_hdrSize (n : Nat) (s : State) : (moveSetHdrSize n s).hdrSize = n := rfl
@[simp] theorem moveSetHdrSize_ctrl (n : Nat) (s : State) : (moveSetHdrSize n s).ctrl = s.ctrl := rfl
@[simp] theorem moveSetHdrSize_status (n : Nat) (s : State) : (moveSetHdrSize n s).status = s.status := rfl
@[simp] theorem moveSetHdrSize_matchOff (n : Nat) (s : State) : (moveSetHdrSize n s).matchOff = s.matchOff := rfl
@[simp] theorem moveSetHdrSize_host (n : Nat) (s : State) : (moveSetHdrSize n s).host = s.host := rfl

@[simp] theorem moveReset_car (s : State) : (moveReset s).car = State.reset.car := rfl
@[simp] theorem moveReset_out (s : State) : (moveReset s).out = State.reset.out := rfl
@[simp] theorem moveReset_pay (s : State) : (moveReset s).pay = State.reset.pay := rfl
@[simp] theorem moveReset_bit (s : State) : (moveReset s).bit = State.reset.bit := rfl
@[simp] theorem moveReset_hdrSize (s : State) : (moveReset s).hdrSize = State.reset.hdrSize := rfl
@[simp] theorem moveReset_ctrl (s : State) : (moveReset s).ctrl = State.reset.ctrl := rfl
@[simp] theorem moveReset_status (s : State) : (moveReset s).status = State.reset.status := rfl
@[simp] theorem moveReset_matchOff (s : State) : (moveReset s).matchOff = State.reset.matchOff := rfl
@[simp] theorem moveReset_host (s : State) : (moveReset s).host = s.host := rfl

end Sys2Proof.Machine
end

