-- ==== Sys2Proof/Laws/Ops.lean ====
section
/-! SUPPORT. Everything each shared operation and each meaning can do, said once. -/

namespace Sys2Proof.Machine

/-! ## The numeric values of STATUS (R155, R185) -/

theorem statusSuccess_eq (b : Bool) : statusSuccess b = if b then 0x0A#8 else 0x02#8 := by cases b <;> rfl

@[simp] theorem statusError_noMarkerFound : statusError .noMarkerFound = 0x14#8 := rfl
@[simp] theorem statusError_imageTooSmall : statusError .imageTooSmall = 0x24#8 := rfl
@[simp] theorem statusError_insufficientCapacity : statusError .insufficientCapacity = 0x34#8 := rfl
@[simp] theorem statusError_illegalCommand : statusError .illegalCommand = 0x44#8 := rfl
@[simp] theorem statusSuccess_false : statusSuccess false = 0x02#8 := rfl
@[simp] theorem statusSuccess_true : statusSuccess true = 0x0A#8 := rfl

/-! ## The halves -/

theorem unpackHalf_cases (s : State) :
    (unpack s.bit = none ∧ unpackHalf s = .error .noMarkerFound) ∨
    ∃ p k, unpack s.bit = some (p, k) ∧ unpackHalf s = .ok { s with pay := p, matchOff := k } := by
  unfold unpackHalf
  cases h : unpack s.bit with
  | none => exact .inl ⟨rfl, rfl⟩
  | some r => exact .inr ⟨r.1, r.2, rfl, rfl⟩

theorem embedHalf_cases (s : State) :
    (s.car.length < s.hdrSize ∧ embedHalf s = .error .imageTooSmall) ∨
    (s.hdrSize ≤ s.car.length ∧ s.ctrl.getLsbD 0 = true ∧ s.car.length - s.hdrSize < s.bit.length ∧
      embedHalf s = .error .insufficientCapacity) ∨
    (s.hdrSize ≤ s.car.length ∧ (s.ctrl.getLsbD 0 = false ∨ s.bit.length ≤ s.car.length - s.hdrSize) ∧
      embedHalf s = .ok { s with out := embed s.hdrSize s.car s.bit }) := by
  by_cases h1 : s.car.length < s.hdrSize
  · exact .inl ⟨h1, by simp [embedHalf, carTooSmall, carLen, h1]⟩
  · by_cases h2 : s.car.length - s.hdrSize < s.bit.length
    · have h3 : strict s = s.ctrl.getLsbD 0 := rfl
      cases h4 : s.ctrl.getLsbD 0 with
      | true =>
        refine .inr (.inl ⟨by omega, rfl, h2, ?_⟩)
        simp [embedHalf, carTooSmall, carLen, h1, h3.trans h4, bitsOverflow, pixelCount, bitLen, h2]
      | false =>
        refine .inr (.inr ⟨by omega, .inl rfl, ?_⟩)
        simp [embedHalf, carTooSmall, carLen, h1, h3.trans h4]
    · refine .inr (.inr ⟨by omega, .inr (by omega), ?_⟩)
      simp [embedHalf, carTooSmall, carLen, h1, bitsOverflow, pixelCount, bitLen, h2]

theorem extractHalf_cases (s : State) :
    (s.car.length < s.hdrSize ∧ extractHalf s = .error .imageTooSmall) ∨
    (s.hdrSize ≤ s.car.length ∧ extractHalf s = .ok { s with bit := extract s.hdrSize s.car }) := by
  by_cases h1 : s.car.length < s.hdrSize
  · exact .inl ⟨h1, by simp [extractHalf, carTooSmall, carLen, h1]⟩
  · exact .inr ⟨by omega, by simp [extractHalf, carTooSmall, carLen, h1]⟩

/-! ## The ends of a command -/

@[simp] theorem conclude_ok (s shadow : State) (b : Bool) : conclude s b (.ok shadow) = commit b shadow := rfl

@[simp] theorem conclude_error (s : State) (b : Bool) (e : CmdError) : conclude s b (.error e) = raise e s := rfl

/-! ## The meanings -/

@[simp] theorem exec_pack (s : State) : exec .pack s = .next (commit false (packHalf s)) := rfl
@[simp] theorem exec_unpack (s : State) : exec .unpack s = .next (conclude s false (unpackHalf s)) := rfl
@[simp] theorem exec_embed (s : State) : exec .embed s = .next (conclude s (bitsOverflow s) (embedHalf s)) := rfl
@[simp] theorem exec_extract (s : State) : exec .extract s = .next (conclude s false (extractHalf s)) := rfl
@[simp] theorem exec_encode (s : State) :
    exec .encode s =
      .next (conclude (packHalf s) (bitsOverflow (packHalf s)) (embedHalf (packHalf s))) := rfl

theorem exec_decode_cases (s : State) :
    (s.car.length < s.hdrSize ∧ exec .decode s = .next (raise .imageTooSmall s)) ∨
    (s.hdrSize ≤ s.car.length ∧ exec .decode s =
      .next (conclude { s with bit := extract s.hdrSize s.car } false
        (unpackHalf { s with bit := extract s.hdrSize s.car }))) := by
  rcases extractHalf_cases s with ⟨h, e⟩ | ⟨h, e⟩
  · exact .inl ⟨h, by simp [exec, execDecode, e]⟩
  · exact .inr ⟨h, by simp [exec, execDecode, e]⟩

/-! ## The step -/

/-- What a step does: wait, refuse a move that comes while busy, or make the move. -/
theorem step_cases (s : State) :
    (s.host = [] ∧ step s = .next s) ∨
    ∃ m rest, s.host = m :: rest ∧
      ((busy s = true ∧ m ≠ .reset ∧ step s = .refused .hostMoveWhileBusy) ∨
        ((busy s = false ∨ m = .reset) ∧ step s = idleMove m { s with host := rest })) := by
  rcases hh : s.host with _ | ⟨m, rest⟩
  · exact .inl ⟨rfl, by simp [step, hh]⟩
  · refine .inr ⟨m, rest, rfl, ?_⟩
    have hb : busy { s with host := rest } = busy s := rfl
    by_cases hm : m = .reset
    · exact .inr ⟨.inr hm, by simp [step, hh, runMove, hm]⟩
    · cases hbs : busy s with
      | true => exact .inl ⟨rfl, hm, by simp [step, hh, runMove, hm, hb, hbs]⟩
      | false => exact .inr ⟨.inl rfl, by simp [step, hh, runMove, hb, hbs]⟩

/-! ## Memory's form (log entry 1) -/

/-- Every buffer, whatever an operation left in it, has its cells in the one canonical form. -/
theorem bufferCells_wf (v : List Byte) : Memory.wf (bufferCells v) := by
  simp [Memory.wf, bufferCells, List.map_fst_zip]

/-- Two buffers with equal cells are equal data. -/
theorem bufferCells_injective (v w : List Byte) (h : bufferCells v = bufferCells w) : v = w := by
  have := congrArg (List.map Prod.snd) h
  simpa [bufferCells, List.map_snd_zip] using this

theorem reset_memory_wf (b : ByteBuf) : Memory.wf (bufferCells (byteBuf b State.reset)) := bufferCells_wf _

/-- The memory of every next state of every step has its canonical form. -/
theorem step_memory_wf (s t : State) (b : ByteBuf) (_ : step s = .next t) :
    Memory.wf (bufferCells (byteBuf b t)) := bufferCells_wf _

end Sys2Proof.Machine
end

