-- ==== Sys2Proof/Laws/PerInstr.lean ====
section
/-! SUPPORT. The statement made per instruction: its encoding. -/

namespace Sys2Proof.Laws.Encoding

/-- The instruction is well formed, its byte is a legal command byte, and the byte decodes to it (R70 to R72). -/
def Statement (i : Instr) : Prop :=
  i.wellFormed = true ∧ legalCommand (Sys2Proof.encode i) = true ∧ Sys2Proof.decode (Sys2Proof.encode i) = .ok i

theorem pack : Statement .pack := ⟨rfl, rfl, rfl⟩
theorem unpack : Statement .unpack := ⟨rfl, rfl, rfl⟩
theorem embed : Statement .embed := ⟨rfl, rfl, rfl⟩
theorem extract : Statement .extract := ⟨rfl, rfl, rfl⟩
theorem encode : Statement .encode := ⟨rfl, rfl, rfl⟩
theorem decode : Statement .decode := ⟨rfl, rfl, rfl⟩

end Sys2Proof.Laws.Encoding
end

