-- ==== Sys2Proof/Laws/Transforms.lean ====
section
/-! SUPPORT. The small lemmas of the pure functions (Machine/Transforms.lean): lengths, and the element at an index. -/

namespace Sys2Proof.Machine

/-! ## Bits and bytes -/

@[simp] theorem byteToBits_length (x : Byte) : (byteToBits x).length = 8 := by simp [byteToBits]

theorem byteToBits_getElem? (x : Byte) (b : Nat) (h : b < 8) :
    (byteToBits x)[b]? = some (x.getLsbD (7 - b)) := by
  simp [byteToBits, h]

theorem termBits_eq : termBits = List.replicate 15 true ++ [false] := by decide

@[simp] theorem termBits_length : termBits.length = 16 := by decide

theorem termBits_getElem?_one (t : Nat) (h : t < 15) : termBits[t]? = some true := by
  have : ∀ u : Fin 15, termBits[u.val]? = some true := by decide
  exact this ⟨t, h⟩

theorem termBits_getElem?_zero : termBits[15]? = some false := by decide

theorem bitByte_eq (x : Bit) : bitByte x = if x then 1#8 else 0#8 := by cases x <;> rfl

/-! ## The frame -/

@[simp] theorem payloadBits_nil : payloadBits [] = [] := rfl

@[simp] theorem payloadBits_cons (x : Byte) (p : List Byte) :
    payloadBits (x :: p) = byteToBits x ++ payloadBits p := rfl

@[simp] theorem payloadBits_append (p q : List Byte) :
    payloadBits (p ++ q) = payloadBits p ++ payloadBits q := by simp [payloadBits]

@[simp] theorem payloadBits_length (p : List Byte) : (payloadBits p).length = 8 * p.length := by
  induction p with
  | nil => rfl
  | cons x p ih => simp [ih]; omega

theorem pack_eq (p : List Byte) : pack p = payloadBits p ++ termBits := rfl

@[simp] theorem frame_eq_pack (p : List Byte) : frame p = pack p := rfl

theorem payloadBits_getElem? (p : List Byte) (j b : Nat) (hb : b < 8) :
    (payloadBits p)[8 * j + b]? = (p[j]?).map fun x => x.getLsbD (7 - b) := by
  induction p generalizing j with
  | nil => simp
  | cons x p ih =>
    cases j with
    | zero =>
      rw [payloadBits_cons, List.getElem?_append_left (by simp; omega), Nat.mul_zero, Nat.zero_add,
        byteToBits_getElem? x b hb]
      rfl
    | succ j =>
      rw [payloadBits_cons, List.getElem?_append_right (by simp; omega), byteToBits_length,
        show 8 * (j + 1) + b - 8 = 8 * j + b by omega, ih]
      rfl

/-! ## Regrouping -/

@[simp] theorem groupBytes_length (m : Nat) (s : List Bit) : (groupBytes m s).length = m := by
  induction m generalizing s with
  | zero => rfl
  | succ m ih => simp [groupBytes, ih]

theorem groupBytes_getElem? (m : Nat) (s : List Bit) (j : Nat) (h : j < m) :
    (groupBytes m s)[j]? = some (bitsToByte ((s.drop (8 * j)).take 8)) := by
  induction m generalizing s j with
  | zero => omega
  | succ m ih =>
    cases j with
    | zero => simp [groupBytes]
    | succ j =>
      simp only [groupBytes, List.getElem?_cons_succ]
      rw [ih _ _ (by omega), List.drop_drop, show 8 + 8 * j = 8 * (j + 1) by omega]

/-! ## The search -/

theorem findTermFrom_shift (k : Nat) (s : List Bit) :
    findTermFrom k s = (findTermFrom 0 s).map (k + ·) := by
  induction s generalizing k with
  | nil => rfl
  | cons x s ih =>
    simp only [findTermFrom]
    split
    · rfl
    · rw [ih (k + 1), ih (0 + 1)]
      cases findTermFrom 0 s
      · rfl
      · simp; omega

@[simp] theorem findTerm_nil : findTerm [] = none := rfl

theorem findTerm_cons (x : Bit) (s : List Bit) :
    findTerm (x :: s) = if termBits.isPrefixOf (x :: s) then some 0 else (findTerm s).map (1 + ·) := by
  simp only [findTerm, findTermFrom]
  split
  · rfl
  · exact findTermFrom_shift 1 s

theorem unpack_eq_some (s : List Bit) (p : List Byte) (k : Nat) :
    unpack s = some (p, k) ↔ findTerm s = some k ∧ p = groupBytes (k / 8) s := by
  unfold unpack
  cases findTerm s with
  | none => simp
  | some j =>
    simp only [Option.some.injEq, Prod.mk.injEq]
    constructor
    · rintro ⟨rfl, rfl⟩; exact ⟨rfl, rfl⟩
    · rintro ⟨rfl, rfl⟩; exact ⟨rfl, rfl⟩

theorem unpack_eq_none (s : List Bit) : unpack s = none ↔ findTerm s = none := by
  unfold unpack
  cases findTerm s <;> simp

/-! ## Embedding and extraction -/

@[simp] theorem embedPixels_nil_left (s : List Bit) : embedPixels [] s = [] := by cases s <;> rfl

@[simp] theorem embedPixels_nil_right (px : List Byte) : embedPixels px [] = px := by cases px <;> rfl

@[simp] theorem embedPixels_length (px : List Byte) (s : List Bit) :
    (embedPixels px s).length = px.length := by
  induction px generalizing s with
  | nil => simp
  | cons y px ih => cases s <;> simp [embedPixels, ih]

theorem embedPixels_getElem?_lt (px : List Byte) (s : List Bit) (i : Nat) (x : Bit) (h : s[i]? = some x) :
    (embedPixels px s)[i]? = (px[i]?).map fun y => muxLSB y x := by
  induction px generalizing s i with
  | nil => simp
  | cons y px ih =>
    cases s with
    | nil => simp at h
    | cons z s =>
      cases i with
      | zero => simp_all [embedPixels]
      | succ i => simpa [embedPixels] using ih s i (by simpa using h)

theorem embedPixels_getElem?_ge (px : List Byte) (s : List Bit) (i : Nat) (h : s.length ≤ i) :
    (embedPixels px s)[i]? = px[i]? := by
  induction px generalizing s i with
  | nil => simp
  | cons y px ih =>
    cases s with
    | nil => rfl
    | cons z s =>
      cases i with
      | zero => simp at h
      | succ i => simpa [embedPixels] using ih s i (by simpa using h)

@[simp] theorem embed_length (h : Nat) (img : List Byte) (s : List Bit) :
    (embed h img s).length = img.length := by simp [embed]; omega

theorem embed_drop (h : Nat) (img : List Byte) (s : List Bit) (hl : h ≤ img.length) :
    (embed h img s).drop h = embedPixels (img.drop h) s := by
  simp [embed, hl]

theorem embed_take (h : Nat) (img : List Byte) (s : List Bit) (hl : h ≤ img.length) :
    (embed h img s).take h = img.take h := by
  simp [embed, hl]

@[simp] theorem extract_length (h : Nat) (img : List Byte) : (extract h img).length = img.length - h := by
  simp [extract]

theorem extract_getElem? (h : Nat) (img : List Byte) (i : Nat) :
    (extract h img)[i]? = (img[h + i]?).map fun y => y.getLsbD 0 := by
  simp [extract]

end Sys2Proof.Machine
end

