-- ==== Sys2Proof/Tests/Slice0.lean ====
section
/-! SUPPORT. Tests, with expected results from the spec's words and vectors, and one witness for the hypotheses of each
statement. -/

namespace Sys2Proof.Tests

open Sys2Proof Sys2Proof.Machine Sys2Proof.Safety

/-- Bits written as the spec writes them, 0 and 1. -/
def bits (l : List Nat) : List Bit := l.map fun n => n == 1

/-- The next state of an outcome. -/
def next? (o : Host.Outcome State Fault Refusal) : Option State :=
  match o with
  | .next s => some s
  | .fault _ => none
  | .refused _ => none

/-- A state right after reset with the given header size, carrier, payload, bitstream and `CTRL`. -/
def st (h : Nat) (car pay : List Byte) (bit : List Bit) (ctrl : BitVec 8) : State :=
  { State.reset with hdrSize := h, car := car, pay := pay, bit := bit, ctrl := ctrl }

/-- A header of 54 bytes (any byte sequence is a legal header, R81). -/
def hdr54 : List Byte := (List.range 54).map (BitVec.ofNat 8)

/-! ## Well-formedness (R72): an ill-formed byte for each check -/

theorem test_rsv_check_refuses : rsvIsZero 0x09#8 = false ∧ rsvIsZero 0x81#8 = false ∧ legalCommand 0x09#8 = false := by
  decide
theorem test_opc_check_refuses : opcIsAssigned 0x00#8 = false ∧ opcIsAssigned 0x07#8 = false ∧
    legalCommand 0x00#8 = false ∧ legalCommand 0x07#8 = false := by decide
theorem test_wellformed : legalCommand 0x06#8 = true ∧ Instr.wellFormed .decode = true := by decide

/-! ## Decoding: each word written out from RSV (7:3) and OPC (2:0) of R70, R71 -/

theorem test_decode_pack : decode (0b00000#5 ++ 0b001#3) = .ok .pack := by decide
theorem test_decode_unpack : decode (0b00000#5 ++ 0b010#3) = .ok .unpack := by decide
theorem test_decode_embed : decode (0b00000#5 ++ 0b011#3) = .ok .embed := by decide
theorem test_decode_extract : decode (0b00000#5 ++ 0b100#3) = .ok .extract := by decide
theorem test_decode_encode : decode (0b00000#5 ++ 0b101#3) = .ok .encode := by decide
theorem test_decode_decode : decode (0b00000#5 ++ 0b110#3) = .ok .decode := by decide
/-- T8.2: legal OPC, reserved bits set. -/
theorem test_decode_reserved : decode 0x85#8 = .error .reservedBitsSet ∧ decode 0x07#8 = .error .reservedOpcode7 ∧
    decode 0x00#8 = .error .reservedOpcode0 := by decide
theorem test_table_word : decodeTableWord 8 5 = some .encode ∧ decodeTableWord 8 0 = none ∧
    decodeTableWord 8 0x85 = none := by decide

/-! ## PACK -/

/-- T2.2. -/
theorem test_pack_hi : (next? (exec .pack (st 54 [] [0x48#8, 0x69#8] [] 0))).map (fun t => (t.bit, t.status)) =
    some (bits [0,1,0,0,1,0,0,0, 0,1,1,0,1,0,0,1, 1,1,1,1,1,1,1,1,1,1,1,1,1,1,1,0], 0x02#8) := by decide
/-- T2.11: the old content is gone. -/
theorem test_pack_overwrites : (next? (exec .pack (st 54 [] [] (List.replicate 20 true) 0))).map (fun t => t.bit.length) =
    some 16 := by decide

/-! ## UNPACK -/

/-- T3.19: unaligned match, three bits dropped, the bits after the terminator ignored. -/
theorem test_unpack_unaligned :
    (next? (exec .unpack (st 54 [] [0x99#8, 0x98#8]
      (bits [0,1,0,0,0,0,0,1, 1,0,1, 1,1,1,1,1,1,1,1,1,1,1,1,1,1,1,0, 0,1,1,0]) 0))).map
      (fun t => (t.pay, t.matchOff, t.status)) = some ([0x41#8], 11, 0x02#8) := by decide
/-- T3.13, T3.18: fifteen bits, one short. -/
theorem test_unpack_no_marker :
    (next? (exec .unpack (st 54 [] [0x99#8] (List.replicate 15 true) 0))).map
      (fun t => (t.pay, t.matchOff, t.status)) = some ([0x99#8], 0, 0x14#8) := by decide

/-! ## EMBED -/

/-- T5.4: truncation. -/
theorem test_embed_truncates :
    (next? (exec .embed (st 54 (hdr54 ++ [0x10#8, 0x11#8, 0x12#8]) [] (bits [1,0,0,1,1]) 0))).map
      (fun t => (t.out, t.status)) = some (hdr54 ++ [0x11#8, 0x10#8, 0x12#8], 0x0A#8) := by decide
/-- T5.10: `ImageTooSmall` comes before `InsufficientCapacity`; `OUT` unchanged. -/
theorem test_embed_priority :
    (next? (exec .embed (st 54 (List.replicate 10 0#8) [] (List.replicate 24 true) 1#8))).map
      (fun t => (t.out, t.status)) = some ([], 0x24#8) := by decide

/-! ## EXTRACT -/

/-- T6.1. -/
theorem test_extract_low_bits :
    (next? (exec .extract (st 54 (hdr54 ++ [0x10#8, 0x11#8, 0x12#8, 0x13#8, 0xFF#8, 0xFE#8]) [] [] 0))).map
      (fun t => (t.bit, t.status)) = some (bits [0,1,0,1,1,0], 0x02#8) := by decide
/-- T6.2: an empty pixel region. -/
theorem test_extract_empty : (next? (exec .extract (st 54 hdr54 [] [true] 0))).map (fun t => (t.bit, t.status)) =
    some ([], 0x02#8) := by decide

/-! ## ENCODE -/

/-- T7.7: exact fit in strict mode. -/
theorem test_encode_exact_fit :
    (next? (exec .encode (st 54 (hdr54 ++ List.replicate 24 0#8) [0x41#8] [] 1#8))).map
      (fun t => (t.out.drop 54, t.status)) =
    some ([0,1,0,0,0,0,0,1,1,1,1,1,1,1,1,1,1,1,1,1,1,1,1,0], 0x02#8) := by decide
/-- T7.9: the first half's `BIT` stays although the second half raises. -/
theorem test_encode_error_keeps_bit :
    (next? (exec .encode (st 54 (List.replicate 10 0#8) [0x41#8] [] 1#8))).map
      (fun t => (t.bit.length, t.out, t.status)) = some (24, [], 0x24#8) := by decide

/-! ## DECODE -/

/-- T7.2 (the pixel bytes of S1.7). -/
theorem test_decode_hi :
    (next? (exec .decode (st 54 (hdr54 ++ [0,1,0,0,1,0,0,0,0,1,1,0,1,0,0,1,1,1,1,1,1,1,1,1,1,1,1,1,1,1,1,0]) [] [] 0))).map
      (fun t => (t.pay, t.matchOff, t.status)) = some ([0x48#8, 0x69#8], 16, 0x02#8) := by decide
/-- T7.12: a short image; `BIT` keeps its old content. -/
theorem test_decode_short : (next? (exec .decode (st 54 (List.replicate 53 0#8) [] [true] 0))).map
      (fun t => (t.bit, t.status)) = some ([true], 0x24#8) := by decide

/-! ## The step and the host's moves -/

/-- T8.1: an all-zero command byte. -/
theorem test_step_illegal : (next? (step { State.reset with host := [.writeCmd 0x00#8] })).map (fun t => t.status) =
    some 0x44#8 := by decide
/-- T8.7: `ENCODE` as the first command after reset, through the table word. -/
theorem test_step_first_command : (next? (step (State.reset.withFetchWord 8 5))).map (fun t => (t.bit, t.status)) =
    some (bits [1,1,1,1,1,1,1,1,1,1,1,1,1,1,1,0], 0x24#8) := by decide
/-- T8.11. -/
theorem test_ctrl_write : (next? (step { State.reset with host := [.writeCtrl 0xFF#8] })).map (fun t => t.ctrl) =
    some 0x01#8 := by decide
/-- T8.9. -/
theorem test_reset_move :
    (next? (step { st 10 [1#8] [2#8] [true] 1#8 with status := 0x0A#8, host := [.reset] })) = some State.reset := by decide

/-! ## Witnesses: concrete states and operands that meet the hypotheses of each statement -/

/-- The terminator alone meets `FirstOccursAt` at 0. -/
theorem term_first_occurs : FirstOccursAt termBits 0 :=
  ⟨⟨by decide, fun t h => by rw [Nat.zero_add]; exact termBits_getElem?_one t h, by decide⟩, fun j h => absurd h (by omega)⟩

/-- A stream shorter than sixteen bits has no occurrence. -/
theorem short_no_occurrence (s : List Bit) (h : s.length < 16) (k : Nat) : ¬ OccursAt s k := fun o => by
  have := o.1
  omega

theorem noCollision_nil : NoCollision [] := fun z h => by simp [ZeroAfterFifteenOnes] at h

theorem witness_IllegalBytesRaiseIllegalCommand :
    (∀ v ∈ [0x00#8, 0x07#8, 0x08#8, 0x85#8, 0xFF#8], ¬ (1 ≤ v.toNat ∧ v.toNat ≤ 6)) ∧ busy State.reset = false := by decide
theorem witness_DecodeEncodeAgree : decode 0x06#8 = .ok .decode ∧ encode .decode = 0x06#8 := by decide
theorem witness_ByteBitsInverse : (List.replicate 8 true).length = 8 ∧ 7 < 8 := by decide
theorem witness_StepRunsTheDecodedCommand :
    ∃ (s : State) (v : Byte) (i : Instr) (rest : List HostMove),
      s.host = .writeCmd v :: rest ∧ busy s = false ∧ decode v = .ok i :=
  ⟨{ State.reset with host := [.writeCmd 0x01#8] }, 0x01#8, .pack, [], by decide⟩
/-- A legal byte at the end of the range, and the illegal byte after it. -/
theorem witness_CommandWriteIssuesTheByte :
    (let s := { State.reset with host := [.writeCmd 0x06#8] };
      busy s = false ∧ s.host = [.writeCmd 0x06#8] ∧ decode 0x06#8 = .ok .decode) ∧
    (let s := { State.reset with host := [.writeCmd 0x07#8] };
      busy s = false ∧ s.host = [.writeCmd 0x07#8] ∧ ¬ (1 ≤ (0x07#8).toNat ∧ (0x07#8).toNat ≤ 6)) := by decide
theorem witness_StepMakesTheNextMove :
    ∃ (s : State) (m : HostMove) (rest : List HostMove), s.host = m :: rest :=
  ⟨{ State.reset with host := [.copyOutToCar] }, .copyOutToCar, [], rfl⟩
theorem witness_TableWordRunsNext : decodeTableWord 8 1 = some .pack ∧ decodeTableWord 8 6 = some .decode := by decide
theorem witness_EngineWaitsForTheHost : State.reset.host = [] := rfl
theorem witness_BusyAdmitsOnlyReset :
    ∃ s t : State, (s.host = [.loadCar []] ∧ HostMove.loadCar [] ≠ .reset ∧ s.status.getLsbD 0 = true) ∧
      t.host = [.reset] :=
  ⟨{ State.reset with status := 0x01#8, host := [.loadCar []] }, { State.reset with host := [.reset] }, by decide⟩
theorem witness_LoadReplacesBuffer : busy State.reset = false := by decide
theorem witness_ReadReturnsAndChangesNothing : busy State.reset = false ∧ Inv State.reset :=
  ⟨by decide, by decide, by decide⟩
theorem witness_CopyIsReadThenLoad : busy State.reset = false ∧
    readReply (.bytes .out) State.reset = .bytes [] := by decide
theorem witness_ConfigurationWrites : busy State.reset = false ∧ 0 < 7 := by decide
theorem witness_RegisterNumbers : regOfNumber 10 = none ∧ regOfNumber 9 = some .matchOff := by decide

/-- The state the witnesses of `WhoWritesWhat` start from: an image of sixteen pixel bytes holding the terminator. -/
def busyWork : State :=
  { st 0 (List.replicate 15 1#8 ++ [0#8]) [7#8] termBits 0 with out := [1#8], matchOff := 3 }

theorem witness_WhoWritesWhat :
    (∃ t, next? (step { busyWork with host := [.loadCar []] }) = some t ∧ t.car ≠ busyWork.car) ∧
    (∃ t, next? (step { busyWork with host := [.writeCmd 0x03#8] }) = some t ∧ t.out ≠ busyWork.out) ∧
    (∃ t, next? (step { busyWork with host := [.writeCmd 0x02#8] }) = some t ∧
      t.pay ≠ busyWork.pay ∧ t.matchOff ≠ busyWork.matchOff ∧ t.status ≠ busyWork.status) ∧
    (∃ t, next? (step { busyWork with host := [.writeCmd 0x01#8] }) = some t ∧ t.bit ≠ busyWork.bit) ∧
    (∃ t, next? (step { busyWork with host := [.setHdrSize 54] }) = some t ∧ t.hdrSize ≠ busyWork.hdrSize) ∧
    (∃ t, next? (step { busyWork with host := [.writeCtrl 0xFF#8] }) = some t ∧ t.ctrl ≠ busyWork.ctrl) :=
  ⟨⟨_, rfl, by decide⟩, ⟨_, rfl, by decide⟩, ⟨_, rfl, by decide⟩, ⟨_, rfl, by decide⟩, ⟨_, rfl, by decide⟩,
    ⟨_, rfl, by decide⟩⟩
theorem witness_ResetRestoresAndIsTheOnlyWay :
    (∃ t, next? (runMove .reset { State.reset with status := 0x44#8 }) = some t ∧ t.status = 0x00#8) ∧
    (∃ t, next? (runMove (.setHdrSize 10) State.reset) = some t ∧ t.hdrSize ≠ State.reset.hdrSize) ∧
    (∃ t, next? (runMove (.setStrict true) State.reset) = some t ∧ t.ctrl ≠ State.reset.ctrl) :=
  ⟨⟨_, rfl, by decide⟩, ⟨_, rfl, by decide⟩, ⟨_, rfl, by decide⟩⟩
/-- For `PackSerializesPayload` and `PackProperties`: a payload with an element at index 0, and the last bit index. -/
theorem witness_PackProperties : ([0x48#8, 0x69#8] : List Byte)[1]? = some 0x69#8 ∧ 7 < 8 := by decide
theorem witness_PackSerializesPayload : ([0x48#8] : List Byte)[0]? = some 0x48#8 ∧ 7 < 8 ∧ 14 < 15 := by decide
/-- For `FindTermIsLeastOccurrence`: both clauses at their boundary, sixteen bits and fifteen. -/
theorem witness_FindTermIsLeastOccurrence :
    FirstOccursAt termBits 0 ∧ ∀ k, ¬ OccursAt (List.replicate 15 true) k :=
  ⟨term_first_occurs, short_no_occurrence _ (by decide)⟩
theorem witness_FindTermAtFirstZero :
    ZeroAfterFifteenOnes termBits 15 ∧ OccursAt (termBits ++ termBits) 0 ∧ OccursAt (termBits ++ termBits) 16 ∧
      ∀ y, ¬ ZeroAfterFifteenOnes [] y := by
  have one : ∀ k ∈ [0, 16], ∀ t : Fin 15, (termBits ++ termBits)[k + t.val]? = some true := by decide
  refine ⟨⟨by decide, by decide, fun t h => ?_⟩, ⟨by decide, fun t h => one 0 (by decide) ⟨t, h⟩, by decide⟩,
    ⟨by decide, fun t h => one 16 (by decide) ⟨t, h⟩, by decide⟩, fun y h => by simp [ZeroAfterFifteenOnes] at h⟩
  rw [Nat.sub_self, Nat.zero_add]
  exact termBits_getElem?_one t h
theorem witness_UnpackReturnsBytesBeforeTerminator :
    FirstOccursAt (st 54 [] [] termBits 0).bit 0 ∧ ∀ k, ¬ OccursAt (st 54 [] [] [] 0).bit k :=
  ⟨term_first_occurs, short_no_occurrence _ (by decide)⟩
theorem witness_BitsAfterTerminatorIgnored : unpack termBits = some ([], 0) := by decide
theorem witness_CollisionTruncatesEarly :
    ZeroAfterFifteenOnes (payloadBits [0xFF#8, 0xFE#8]) 15 ∧
      (∀ y, y < 15 → ¬ ZeroAfterFifteenOnes (payloadBits [0xFF#8, 0xFE#8]) y) ∧ NoCollision [] := by
  have one : ∀ t : Fin 15, (payloadBits [0xFF#8, 0xFE#8])[15 - 15 + t.val]? = some true := by decide
  exact ⟨⟨by decide, by decide, fun t h => one ⟨t, h⟩⟩, fun y h z => absurd z.1 (by omega), noCollision_nil⟩
theorem witness_PackThenUnpack : NoCollision [] ∧ NoCollision (st 54 [] [] [] 0).pay := ⟨noCollision_nil, noCollision_nil⟩
theorem witness_SevenBitTextNeverCollides : ∀ x ∈ ([0x00#8, 0x7F#8] : List Byte), x.toNat < 0x80 := by decide
theorem witness_MuxLSBForms : (0xFE#8 : Byte).getLsbD 0 = false ∧ (0xFF#8 : Byte).getLsbD 0 = true ∧ 0 < 7 := by decide

/-- One image of a one-byte header and one pixel byte, with `n` stream bits and `CTRL` as given. -/
def tiny (n : Nat) (ctrl : BitVec 8) : State := st 1 [0xAA#8, 0x55#8] [] (List.replicate n true) ctrl

/-- For `EmbedMultiplexesBits` and `CapacityPolicy`: each clause where it begins. -/
theorem witness_EmbedMultiplexesBits :
    ((st 1 [] [] [] 0).car.length < (st 1 [] [] [] 0).hdrSize) ∧
    ((tiny 2 1#8).hdrSize ≤ (tiny 2 1#8).car.length ∧ (tiny 2 1#8).ctrl.getLsbD 0 = true ∧
      (tiny 2 1#8).car.length - (tiny 2 1#8).hdrSize < (tiny 2 1#8).bit.length) ∧
    ((tiny 2 0#8).hdrSize ≤ (tiny 2 0#8).car.length ∧ (tiny 2 0#8).ctrl.getLsbD 0 = false ∧
      (tiny 2 0#8).car.length - (tiny 2 0#8).hdrSize < (tiny 2 0#8).bit.length) ∧
    ((tiny 1 1#8).hdrSize ≤ (tiny 1 1#8).car.length ∧
      (tiny 1 1#8).bit.length ≤ (tiny 1 1#8).car.length - (tiny 1 1#8).hdrSize ∧
      (tiny 1 1#8).car[1 + 0]? = some 0x55#8 ∧ (tiny 1 1#8).bit[0]? = some true) := by decide
theorem witness_CapacityPolicy :
    (tiny 2 0#8).hdrSize ≤ (tiny 2 0#8).car.length ∧
    (tiny 2 0#8).car.length - (tiny 2 0#8).hdrSize < (tiny 2 0#8).bit.length ∧ (tiny 2 0#8).ctrl.getLsbD 0 = false ∧
    (tiny 2 1#8).ctrl.getLsbD 0 = true ∧
    (tiny 1 0#8).bit.length ≤ (tiny 1 0#8).car.length - (tiny 1 0#8).hdrSize := by decide
/-- A shorter second stream: `t` empty, `s` one bit, one pixel byte. -/
theorem witness_EmbedLaws : 1 ≤ [0xAA#8, 0x55#8].length ∧ ([] : List Bit).length ≤ 0 ∧ 0 < min [true].length (2 - 1) ∧
    [true][0]? = some true ∧ min [true].length (2 - 1) ≤ [false].length := by decide
theorem witness_ExtractTakesLowBits :
    ((st 1 [] [] [] 0).car.length < (st 1 [] [] [] 0).hdrSize) ∧
    ((tiny 0 0).hdrSize ≤ (tiny 0 0).car.length ∧ (tiny 0 0).car[1 + 0]? = some 0x55#8) := by decide
/-- Both sides of the capacity, one bit and two for one pixel byte. -/
theorem witness_ExtractAfterEmbed : 1 ≤ [0xAA#8, 0x55#8].length ∧ 0 < min [true].length (2 - 1) ∧
    [true].length ≤ 2 - 1 ∧ 2 - 1 < [true, true].length := by decide
/-- `pack` of one byte read with a header eight bytes larger. -/
theorem witness_HeaderSizeMismatch :
    0 + 8 * 1 ≤ ((pack [0x41#8]).map bitByte).length ∧
    unpack (extract 0 ((pack [0x41#8]).map bitByte)) = some ([0x41#8], 8) ∧ 8 * 1 ≤ 8 := by decide
/-- For `EncodeIsPackThenEmbed`: each clause where it begins (sixteen pixel bytes just hold the empty frame). -/
theorem witness_EncodeIsPackThenEmbed :
    ((st 1 [] [] [] 0).car.length < (st 1 [] [] [] 0).hdrSize) ∧
    (let s := st 0 (List.replicate 15 0#8) [] [] 1#8;
      s.hdrSize ≤ s.car.length ∧ s.ctrl.getLsbD 0 = true ∧ s.car.length - s.hdrSize < 8 * s.pay.length + 16) ∧
    (let s := st 0 (List.replicate 16 0#8) [] [] 1#8;
      s.hdrSize ≤ s.car.length ∧ 8 * s.pay.length + 16 ≤ s.car.length - s.hdrSize) ∧
    (let s := st 0 (List.replicate 15 0#8) [] [] 0#8;
      s.hdrSize ≤ s.car.length ∧ s.ctrl.getLsbD 0 = false) := by decide
/-- The bits of an image of the terminator's own bits. -/
theorem extract_term_image : extract 0 (termBits.map bitByte) = termBits := by decide
theorem witness_DecodeIsExtractThenUnpack :
    ((st 1 [] [] [] 0).car.length < (st 1 [] [] [] 0).hdrSize) ∧
    (0 ≤ (termBits.map bitByte).length ∧ FirstOccursAt (extract 0 (termBits.map bitByte)) 0) ∧
    (1 ≤ (tiny 0 0).car.length ∧ ∀ k, ¬ OccursAt (extract 1 (tiny 0 0).car) k) :=
  ⟨by decide, ⟨by decide, by rw [extract_term_image]; exact term_first_occurs⟩,
    ⟨by decide, short_no_occurrence _ (by decide)⟩⟩
theorem witness_EncodeCapacity : (st 54 (List.replicate 54 0#8) [] [] 0).hdrSize ≤
    (st 54 (List.replicate 54 0#8) [] [] 0).car.length := by decide
theorem witness_EncodedBitPlane :
    let s := st 0 (List.replicate 16 0#8) [] [] 0
    s.hdrSize ≤ s.car.length ∧ 8 * s.pay.length + 16 ≤ s.car.length - s.hdrSize := by decide
theorem witness_EncodeCopyDecodeRoundTrip :
    busy (st 0 [] [] [] 0) = false ∧ (st 0 [] [] [] 0).hdrSize ≤ (List.replicate 16 0#8).length ∧
      8 * ([] : List Byte).length + 16 ≤ (List.replicate 16 0#8).length - (st 0 [] [] [] 0).hdrSize ∧ NoCollision [] :=
  ⟨by decide, by decide, by decide, noCollision_nil⟩
/-- For `TruncatedRoundTrip`: a collision-free payload cut by one bit, and the colliding payload `FF FE` with its first
sixteen bits kept. -/
theorem witness_TruncatedRoundTrip :
    (let s := st 0 (List.replicate 15 0#8) [] [] 0;
      s.ctrl.getLsbD 0 = false ∧ s.hdrSize ≤ s.car.length ∧ s.car.length - s.hdrSize < 8 * s.pay.length + 16 ∧
        NoCollision s.pay ∧ ∀ k, ¬ OccursAt ((pack s.pay).take (s.car.length - s.hdrSize)) k) ∧
    (let s := st 0 (List.replicate 16 0#8) [0xFF#8, 0xFE#8] [] 0;
      s.ctrl.getLsbD 0 = false ∧ s.hdrSize ≤ s.car.length ∧ s.car.length - s.hdrSize < 8 * s.pay.length + 16 ∧
        FirstOccursAt ((pack s.pay).take (s.car.length - s.hdrSize)) 0) := by
  have e : (pack [0xFF#8, 0xFE#8]).take 16 = termBits := by decide
  refine ⟨⟨by decide, by decide, by decide, noCollision_nil, short_no_occurrence _ (by decide)⟩,
    ⟨by decide, by decide, by decide, ?_⟩⟩
  show FirstOccursAt ((pack [0xFF#8, 0xFE#8]).take 16) 0
  rw [e]
  exact term_first_occurs
/-- For `ErrorPriority`: each clause, the second where both later checks fail too. -/
theorem witness_ErrorPriority :
    ¬ (1 ≤ (0x07#8 : Byte).toNat ∧ (0x07#8 : Byte).toNat ≤ 6) ∧
    (st 1 [] [] [true] 1#8).car.length < (st 1 [] [] [true] 1#8).hdrSize ∧
    ((tiny 2 1#8).hdrSize ≤ (tiny 2 1#8).car.length ∧ (tiny 2 1#8).ctrl.getLsbD 0 = true ∧
      (tiny 2 1#8).car.length - (tiny 2 1#8).hdrSize < (tiny 2 1#8).bit.length ∧
      (tiny 2 1#8).car.length - (tiny 2 1#8).hdrSize < 8 * (tiny 2 1#8).pay.length + 16) ∧
    ∀ k, ¬ OccursAt (extract (tiny 0 0).hdrSize (tiny 0 0).car) k :=
  ⟨by decide, by decide, by decide, short_no_occurrence _ (by decide)⟩
/-- For `ErrorsCommitNothing`: an error of a single command, of `ENCODE`, and both of `DECODE`. -/
theorem witness_ErrorsCommitNothing :
    (next? (exec .embed (tiny 2 1#8))).map (fun t => t.status.getLsbD 2) = some true ∧
    (next? (exec .encode (tiny 0 1#8))).map (fun t => t.status.getLsbD 2) = some true ∧
    (next? (exec .decode (st 1 [] [] [] 0))).map (fun t => t.status) = some 0x24#8 ∧
    (next? (exec .decode (tiny 0 0))).map (fun t => t.status) = some 0x14#8 := by decide
theorem witness_StatusOfEachCommand : (0x0A#8 ∈ statusesOf .embed) ∧
    (next? (exec .embed (tiny 2 0#8))).map (fun t => t.status) = some 0x0A#8 ∧
    (next? (exec .embed (tiny 2 1#8))).map (fun t => t.status) = some 0x34#8 := by decide
/-- For `LengthsAfterSuccess`: a success of each command it names. -/
theorem witness_LengthsAfterSuccess :
    (next? (exec .embed (tiny 1 0))).map (fun t => t.status.getLsbD 1) = some true ∧
    (next? (exec .encode (tiny 0 0))).map (fun t => t.status.getLsbD 1) = some true ∧
    (next? (exec .pack (tiny 0 0))).map (fun t => t.status.getLsbD 1) = some true ∧
    (next? (exec .extract (tiny 0 0))).map (fun t => t.status.getLsbD 1) = some true ∧
    (next? (exec .unpack (st 0 [] [] termBits 0))).map (fun t => t.status.getLsbD 1) = some true := by decide
/-- For `CommandFrames`: a command outside each exception. -/
theorem witness_CommandFrames : Instr.pack ≠ .embed ∧ Instr.pack ≠ .encode ∧ Instr.pack ≠ .unpack ∧ Instr.pack ≠ .decode := by
  decide
/-- For each command two states that agree on its inputs and differ in everything else, the reserved bits of `CTRL` among
it. -/
theorem witness_CommandsReadNoFlag :
    let s := { tiny 2 0#8 with pay := [5#8] }
    let t : State := { s with status := 0x44#8, out := [1#8], matchOff := 9, ctrl := 0xF1#8 }
    SameInputs .pack s { t with car := [], bit := [], hdrSize := 7 } ∧
    SameInputs .unpack s { t with car := [], pay := [], hdrSize := 7 } ∧
    SameInputs .embed s { t with pay := [], ctrl := 0xF0#8 } ∧
    SameInputs .extract s { t with pay := [], bit := [] } ∧
    SameInputs .encode s { t with bit := [], ctrl := 0xF0#8 } ∧
    SameInputs .decode s { t with pay := [], bit := [] } :=
  ⟨rfl, rfl, ⟨rfl, rfl, rfl, rfl⟩, ⟨rfl, rfl⟩, ⟨rfl, rfl, rfl, rfl⟩, ⟨rfl, rfl⟩⟩
/-- The reset state with a command to come. -/
theorem witness_StepKeepsInvariant :
    ∃ s t : State, Inv s ∧ next? (step s) = some t ∧ s.host ≠ [] :=
  ⟨{ State.reset with host := [.writeCmd 0x05#8] }, _, ⟨by decide, by decide⟩, rfl, by decide⟩
theorem witness_EveryStepCompletes : Inv { State.reset with host := [.writeCmd 0x05#8] } := ⟨by decide, by decide⟩

end Sys2Proof.Tests
end

section
/-! PROOF SUPPORT. A command is a set of writes computed from its own inputs. `commandWrites` says for each command which
pieces of state it writes and with what value; `exec_eq_write` ties it to `exec`. What a command leaves unchanged, the
statuses it ends in and what it depends on are then read off its writes. -/

namespace Sys2Proof.Machine

open Sys2Proof.Safety

/-! ## The writes of a command -/

/-- What the end of a command writes; `none` is a piece of state it leaves as it is. Every command writes `STATUS` (R155,
R176), and none writes `CAR`, `HDR_SIZE` or `CTRL` (R20). -/
structure Writes where
  bit : Option (List Bit) := none
  pay : Option (List Byte) := none
  out : Option (List Byte) := none
  matchOff : Option Nat := none
  status : BitVec 8

/-- The state with the writes made. -/
def State.write (s : State) (w : Writes) : State :=
  { s with
    bit := w.bit.getD s.bit
    pay := w.pay.getD s.pay
    out := w.out.getD s.out
    matchOff := w.matchOff.getD s.matchOff
    status := w.status }

@[simp] theorem write_car (s : State) (w : Writes) : (s.write w).car = s.car := rfl
@[simp] theorem write_out (s : State) (w : Writes) : (s.write w).out = w.out.getD s.out := rfl
@[simp] theorem write_pay (s : State) (w : Writes) : (s.write w).pay = w.pay.getD s.pay := rfl
@[simp] theorem write_bit (s : State) (w : Writes) : (s.write w).bit = w.bit.getD s.bit := rfl
@[simp] theorem write_hdrSize (s : State) (w : Writes) : (s.write w).hdrSize = s.hdrSize := rfl
@[simp] theorem write_ctrl (s : State) (w : Writes) : (s.write w).ctrl = s.ctrl := rfl
@[simp] theorem write_status (s : State) (w : Writes) : (s.write w).status = w.status := rfl
@[simp] theorem write_matchOff (s : State) (w : Writes) : (s.write w).matchOff = w.matchOff.getD s.matchOff := rfl
@[simp] theorem write_host (s : State) (w : Writes) : (s.write w).host = s.host := rfl

/-- The writes of the unpacking half on the stream `bits` (R103). -/
def unpackWrites (bits : List Bit) : Writes :=
  match unpack bits with
  | none => { status := statusError .noMarkerFound }
  | some (p, k) => { pay := some p, matchOff := some k, status := statusSuccess false }

/-- The writes of the embedding half of the stream `bits` into the carrier `c` with header size `h` (R121, R123). -/
def embedWrites (h : Nat) (c : List Byte) (bits : List Bit) (strict : Bool) : Writes :=
  if c.length < h then { status := statusError .imageTooSmall }
  else if strict = true ∧ c.length - h < bits.length then { status := statusError .insufficientCapacity }
  else { out := some (embed h c bits), status := statusSuccess (decide (c.length - h < bits.length)) }

/-- The writes of each command (R101, R103, R121, R125, R140, R141). -/
def commandWrites (i : Instr) (s : State) : Writes :=
  match i with
  | .pack => { bit := some (pack s.pay), status := statusSuccess false }
  | .unpack => unpackWrites s.bit
  | .embed => embedWrites s.hdrSize s.car s.bit (strict s)
  | .extract =>
    if s.car.length < s.hdrSize then { status := statusError .imageTooSmall }
    else { bit := some (extract s.hdrSize s.car), status := statusSuccess false }
  | .encode => { embedWrites s.hdrSize s.car (pack s.pay) (strict s) with bit := some (pack s.pay) }
  | .decode =>
    if s.car.length < s.hdrSize then { status := statusError .imageTooSmall }
    else { unpackWrites (extract s.hdrSize s.car) with bit := some (extract s.hdrSize s.car) }

theorem conclude_unpackHalf (s : State) : conclude s false (unpackHalf s) = s.write (unpackWrites s.bit) := by
  obtain ⟨h, e⟩ | ⟨p, k, h, e⟩ := unpackHalf_cases s
  · rw [e, unpackWrites, h]; rfl
  · rw [e, unpackWrites, h]; rfl

theorem conclude_embedHalf (s : State) :
    conclude s (bitsOverflow s) (embedHalf s) = s.write (embedWrites s.hdrSize s.car s.bit (strict s)) := by
  have hstrict : strict s = s.ctrl.getLsbD 0 := rfl
  obtain ⟨hsmall, e⟩ | ⟨hfit, hs, hover, e⟩ | ⟨hfit, hroom, e⟩ := embedHalf_cases s
  · rw [e, embedWrites, if_pos hsmall]; rfl
  · rw [e, embedWrites, if_neg (by omega), if_pos ⟨hstrict.trans hs, hover⟩]; rfl
  · have hcap : ¬ (strict s = true ∧ s.car.length - s.hdrSize < s.bit.length) := by
      rintro ⟨hs, hover⟩
      obtain hs' | hroom := hroom
      · rw [hstrict, hs'] at hs; cases hs
      · omega
    rw [e, embedWrites, if_neg (by omega), if_neg hcap]; rfl

theorem conclude_extractHalf (s : State) :
    conclude s false (extractHalf s) = s.write (commandWrites .extract s) := by
  obtain ⟨hsmall, e⟩ | ⟨hfit, e⟩ := extractHalf_cases s
  · rw [e, commandWrites, if_pos hsmall]; rfl
  · rw [e, commandWrites, if_neg (by omega)]; rfl

/-! ## What the halves' writes can be -/

@[simp] theorem unpackWrites_bit (bits : List Bit) : (unpackWrites bits).bit = none := by
  unfold unpackWrites; split <;> rfl

@[simp] theorem unpackWrites_out (bits : List Bit) : (unpackWrites bits).out = none := by
  unfold unpackWrites; split <;> rfl

theorem unpackWrites_status_mem (bits : List Bit) : (unpackWrites bits).status ∈ statusesOf .unpack := by
  unfold unpackWrites; split <;> simp [statusesOf]

@[simp] theorem embedWrites_bit (h : Nat) (c : List Byte) (bits : List Bit) (x : Bool) :
    (embedWrites h c bits x).bit = none := by
  unfold embedWrites; split_ifs <;> rfl

@[simp] theorem embedWrites_pay (h : Nat) (c : List Byte) (bits : List Bit) (x : Bool) :
    (embedWrites h c bits x).pay = none := by
  unfold embedWrites; split_ifs <;> rfl

@[simp] theorem embedWrites_matchOff (h : Nat) (c : List Byte) (bits : List Bit) (x : Bool) :
    (embedWrites h c bits x).matchOff = none := by
  unfold embedWrites; split_ifs <;> rfl

/-- The embedding half ends with `TRUNC = 1` exactly where it succeeds with more stream bits than pixel bytes (R123). -/
theorem embedWrites_trunc (h : Nat) (c : List Byte) (bits : List Bit) (x : Bool) :
    statusTrunc (embedWrites h c bits x).status = true ↔
      statusDone (embedWrites h c bits x).status = true ∧ c.length - h < bits.length := by
  unfold embedWrites
  split_ifs
  · simp [statusTrunc, statusDone]
  · simp [statusTrunc, statusDone]
  · by_cases hover : c.length - h < bits.length <;> simp [statusTrunc, statusDone, hover]

theorem embedWrites_status_mem (h : Nat) (c : List Byte) (bits : List Bit) (x : Bool) :
    (embedWrites h c bits x).status ∈ statusesOf .embed := by
  unfold embedWrites
  split_ifs
  · simp [statusesOf]
  · simp [statusesOf]
  · by_cases hover : c.length - h < bits.length <;> simp [statusesOf, hover]

/-! ## A command makes its writes -/

/-- A half run on the `BIT` just written, and leaving it, makes its writes and that of `BIT` (R61). -/
theorem write_after_bit (s : State) (v : List Bit) (w : Writes) (h : w.bit = none) :
    { s with bit := v }.write w = s.write { w with bit := some v } := by
  simp [State.write, h]

/-- Every command completes, and what it does is to make its writes. -/
theorem exec_eq_write (i : Instr) (s : State) : exec i s = .next (s.write (commandWrites i s)) := by
  cases i with
  | pack => rfl
  | unpack => rw [exec_unpack, conclude_unpackHalf]; rfl
  | embed => rw [exec_embed, conclude_embedHalf]; rfl
  | extract => rw [exec_extract, conclude_extractHalf]
  | encode =>
    rw [exec_encode, conclude_embedHalf]
    exact congrArg _ (write_after_bit s _ _ (embedWrites_bit ..))
  | decode =>
    obtain ⟨hsmall, e⟩ | ⟨hfit, e⟩ := exec_decode_cases s
    · rw [e, commandWrites, if_pos hsmall]; rfl
    · rw [e, commandWrites, if_neg (by omega), conclude_unpackHalf]
      exact congrArg _ (write_after_bit s _ _ (unpackWrites_bit _))

/-! ## What a command's writes can be -/

theorem commandWrites_out (i : Instr) (s : State) (hembed : i ≠ .embed) (hencode : i ≠ .encode) :
    (commandWrites i s).out = none := by
  cases i with
  | pack => rfl
  | unpack => exact unpackWrites_out _
  | embed => exact absurd rfl hembed
  | extract => simp only [commandWrites]; split_ifs <;> rfl
  | encode => exact absurd rfl hencode
  | decode => simp only [commandWrites]; split_ifs <;> simp

theorem commandWrites_pay_matchOff (i : Instr) (s : State) (hunpack : i ≠ .unpack) (hdecode : i ≠ .decode) :
    (commandWrites i s).pay = none ∧ (commandWrites i s).matchOff = none := by
  cases i with
  | pack => exact ⟨rfl, rfl⟩
  | unpack => exact absurd rfl hunpack
  | embed => simp [commandWrites]
  | extract => simp only [commandWrites]; split_ifs <;> exact ⟨rfl, rfl⟩
  | encode => simp [commandWrites]
  | decode => exact absurd rfl hdecode

theorem commandWrites_bit (i : Instr) (s : State) (hi : i = .unpack ∨ i = .embed) :
    (commandWrites i s).bit = none := by
  obtain rfl | rfl := hi
  · exact unpackWrites_bit _
  · exact embedWrites_bit ..

/-- R186: each command ends in one of its own statuses. -/
theorem commandWrites_status_mem (i : Instr) (s : State) : (commandWrites i s).status ∈ statusesOf i := by
  cases i with
  | pack => simp [commandWrites, statusesOf]
  | unpack => exact unpackWrites_status_mem _
  | embed => exact embedWrites_status_mem ..
  | extract => simp only [commandWrites]; split_ifs <;> simp [statusesOf]
  | encode => exact embedWrites_status_mem ..
  | decode =>
    simp only [commandWrites]
    split_ifs
    · simp [statusesOf]
    · have sub : ∀ v ∈ statusesOf .unpack, v ∈ statusesOf .decode := by decide
      exact sub _ (unpackWrites_status_mem _)

/-- R73: a command's writes are a function of its own inputs. -/
theorem commandWrites_congr {i : Instr} {s₁ s₂ : State} (h : SameInputs i s₁ s₂) :
    commandWrites i s₁ = commandWrites i s₂ := by
  cases i with
  | pack =>
    have hpay : s₁.pay = s₂.pay := h
    simp only [commandWrites, hpay]
  | unpack => exact congrArg unpackWrites h
  | embed =>
    obtain ⟨hcar, hbit, hhdr, hstrict⟩ := h
    simp only [commandWrites, hcar, hbit, hhdr, hstrict]
  | extract =>
    obtain ⟨hcar, hhdr⟩ := h
    simp only [commandWrites, hcar, hhdr]
  | encode =>
    obtain ⟨hpay, hcar, hhdr, hstrict⟩ := h
    simp only [commandWrites, hpay, hcar, hhdr, hstrict]
  | decode =>
    obtain ⟨hcar, hhdr⟩ := h
    simp only [commandWrites, hcar, hhdr]

/-! ## The issue of a byte as a command -/

theorem cmdRsv_append_cmdOpc (v : Byte) : cmdRsv v ++ cmdOpc v = v := by
  rw [cmdRsv, cmdOpc, BitVec.extractLsb'_append_extractLsb'_eq_extractLsb' (by rfl)]
  exact BitVec.extractLsb'_eq_self

theorem eq_opcOf_of_decodeOpc (o : BitVec 3) (i : Instr) : decodeOpc o = .ok i → o = opcOf i := by
  revert o
  cases i <;> decide

/-- The byte of a command is the only one that decodes to it. -/
theorem decode_eq_ok_iff (v : Byte) (i : Instr) : decode v = .ok i ↔ v = encode i := by
  constructor
  · intro h
    unfold decode at h
    split_ifs at h with hrsv
    rw [← cmdRsv_append_cmdOpc v, hrsv, eq_opcOf_of_decodeOpc _ _ h]
    rfl
  · rintro rfl
    cases i <;> rfl

theorem encode_inj {i j : Instr} : encode i = encode j ↔ i = j := by
  refine ⟨fun h => ?_, congrArg encode⟩
  have hi : decode (encode i) = .ok i := (decode_eq_ok_iff _ i).mpr rfl
  have hj : decode (encode i) = .ok j := (decode_eq_ok_iff _ j).mpr h
  exact Except.ok.inj (hi.symm.trans hj)

/-- Everything the write of a byte to `CMD` can do: make the writes of the command whose byte it is, or raise
`IllegalCommand` where it is no command's byte. -/
theorem issueCommand_cases (v : Byte) (s : State) :
    (∃ i, v = encode i ∧ issueCommand v s = .next (s.write (commandWrites i s))) ∨
    ((∀ i, v ≠ encode i) ∧ issueCommand v s = .next (raise .illegalCommand s)) := by
  unfold issueCommand
  cases h : decode v with
  | ok i => exact .inl ⟨i, (decode_eq_ok_iff v i).mp h, exec_eq_write i s⟩
  | error e =>
    refine .inr ⟨fun i hv => ?_, rfl⟩
    rw [(decode_eq_ok_iff v i).mpr hv] at h
    cases h

/-- Everything a step that answers a next state can have done: wait, or make the host's next move. -/
theorem step_eq_next_cases {s t : State} (h : step s = .next t) :
    (s.host = [] ∧ t = s) ∨
    ∃ m rest, s.host = m :: rest ∧ idleMove m { s with host := rest } = .next t := by
  obtain ⟨hnil, e⟩ | ⟨m, rest, hcons, ⟨-, -, e⟩ | ⟨-, e⟩⟩ := step_cases s
  · rw [e] at h; cases h; exact .inl ⟨hnil, rfl⟩
  · rw [e] at h; cases h
  · exact .inr ⟨m, rest, hcons, e ▸ h⟩

end Sys2Proof.Machine
end

section
/-! PROOFS. The statements of the state family: what a step and a command leave unchanged, the fields of `STATUS`, the
dependence on inputs, the invariant, and the values after reset. -/

namespace Sys2Proof.Machine

open Sys2Proof.Safety

/-! ## The invariant -/

/-- Settles O51: both conditions are about the two fixed register values of R38. -/
theorem resetMeetsInvariant : Obligations.ResetMeetsInvariant := by
  unfold Obligations.ResetMeetsInvariant Safety.Inv
  decide

/-- A write to `CTRL` stores bit 0 only, so its reserved bits stay 0 (R28). -/
theorem ctrlWritten_reserved_zero (v : BitVec 8) : ctrlWritten v &&& 0xFE#8 = 0#8 := by
  rw [ctrlWritten, BitVec.and_assoc]
  exact BitVec.and_zero

/-- A command ends in one of the seven values of R185, and not in the one that only reset gives. -/
theorem statusesOf_subset_statusValues (i : Instr) : ∀ v ∈ statusesOf i, v ∈ statusValues ∧ v ≠ 0x00#8 := by
  cases i <;> decide

/-- The write of any byte to `CMD` keeps the invariant: `CTRL` is not written, and `STATUS` ends at a value of R185. -/
theorem issueCommand_keeps_inv {v : Byte} {s t : State} (hs : Safety.Inv s) (h : issueCommand v s = .next t) :
    Safety.Inv t := by
  obtain ⟨-, hctrl⟩ := hs
  obtain ⟨i, -, e⟩ | ⟨-, e⟩ := issueCommand_cases v s
  · rw [e] at h; cases h
    obtain ⟨hmem, -⟩ := statusesOf_subset_statusValues i _ (commandWrites_status_mem i s)
    exact ⟨hmem, hctrl⟩
  · rw [e] at h; cases h
    exact ⟨by simp [statusValues], hctrl⟩

/-- Every host move keeps the invariant. -/
theorem idleMove_keeps_inv {m : HostMove} {s t : State} (hs : Safety.Inv s) (h : idleMove m s = .next t) :
    Safety.Inv t := by
  have ⟨hstatus, _⟩ := hs
  cases m with
  | writeCmd v => exact issueCommand_keeps_inv hs h
  | setStrict x => cases h; exact ⟨hstatus, ctrlWritten_reserved_zero _⟩
  | writeCtrl v => cases h; exact ⟨hstatus, ctrlWritten_reserved_zero _⟩
  | reset => cases h; exact resetMeetsInvariant
  | loadCar _ | loadPay _ | loadBit _ | read _ | copyOutToCar | setHdrSize _ | writeReadOnly _ _ => cases h; exact hs

/-- Settles O52: a step waits or makes one host move, and every host move keeps the invariant. -/
theorem stepKeepsInvariant : Obligations.StepKeepsInvariant := by
  intro s t hs h
  obtain ⟨-, rfl⟩ | ⟨m, rest, -, hm⟩ := step_eq_next_cases h
  · exact hs
  · have hs' : Safety.Inv { s with host := rest } := hs
    exact idleMove_keeps_inv hs' hm

/-! ## What changes and what stays -/

/-- Settles O48: a command makes its writes, and those of the other commands' results are `none`. -/
theorem commandFrames : Obligations.CommandFrames := by
  intro i s
  refine ⟨_, exec_eq_write i s, fun a => rfl, rfl, rfl, rfl, rfl, ?_, ?_, ?_⟩
  · intro hembed hencode
    simp [memReadByte, byteBuf, outLen, commandWrites_out i s hembed hencode]
  · intro hunpack hdecode
    obtain ⟨hpay, hmatch⟩ := commandWrites_pay_matchOff i s hunpack hdecode
    simp [memReadByte, byteBuf, payLen, hpay, hmatch]
  · intro hi
    simp [memReadBit, bitLen, commandWrites_bit i s hi]

/-- Settles O15: the host's next move is the only thing a step makes, and each move writes its own pieces of state. -/
theorem whoWritesWhat : Obligations.WhoWritesWhat := by
  intro s t h
  obtain ⟨hnil, rfl⟩ | ⟨m, rest, hcons, hm⟩ := step_eq_next_cases h
  · simp [hnil]
  · rw [hcons]
    cases m with
    | writeCmd v =>
      obtain ⟨i, rfl, e⟩ | ⟨-, e⟩ := issueCommand_cases v { s with host := rest }
      · obtain rfl : _ = t := Host.Outcome.next.inj (e.symm.trans hm)
        cases i <;> simp [encode, opcOf, commandWrites_out, commandWrites_pay_matchOff, commandWrites_bit]
      · obtain rfl : _ = t := Host.Outcome.next.inj (e.symm.trans hm)
        simp
    | loadCar _ | loadPay _ | loadBit _ | read _ | copyOutToCar | setStrict _ | writeCtrl _ | setHdrSize _
      | writeReadOnly _ _ | reset =>
      cases hm
      simp

/-! ## The fields of STATUS -/

/-- R29's conditions hold of each of the values of R185 but the one after reset, which has neither `DONE` nor `ERR`. -/
theorem statusFields_of_mem : ∀ v ∈ statusValues, v ≠ 0x00#8 →
    statusBusy v = false ∧ v.getLsbD 7 = false ∧ (statusDone v = true ↔ statusErr v = false) ∧
    (statusEcode v = 0#3 ↔ statusErr v = false) ∧ (statusEcode v).toNat ≤ 4 := by
  decide

/-- Only the commands with an embedding half have a status with `TRUNC = 1` (R186). -/
theorem statusTrunc_of_mem_statusesOf (i : Instr) (hembed : i ≠ .embed) (hencode : i ≠ .encode) :
    ∀ v ∈ statusesOf i, statusTrunc v = false := by
  revert hembed hencode
  cases i <;> decide

@[simp] theorem pack_length (p : List Byte) : (pack p).length = 8 * p.length + 16 := by
  simp [pack_eq]

theorem commandWrites_trunc (i : Instr) (s : State) :
    statusTrunc (commandWrites i s).status = true ↔
      statusDone (commandWrites i s).status = true ∧
        ((i = .embed ∧ s.car.length - s.hdrSize < s.bit.length) ∨
          (i = .encode ∧ s.car.length - s.hdrSize < 8 * s.pay.length + 16)) := by
  cases i with
  | embed => simpa [commandWrites] using embedWrites_trunc s.hdrSize s.car s.bit (strict s)
  | encode => simpa [commandWrites] using embedWrites_trunc s.hdrSize s.car (pack s.pay) (strict s)
  | pack | unpack | extract | decode =>
    simp [statusTrunc_of_mem_statusesOf _ _ _ _ (commandWrites_status_mem _ s)]

/-- Settles O46: R29's conditions hold of every status a command or an illegal byte ends in, and `TRUNC` is the embedding
half's. -/
theorem statusAfterAnyCommand : Obligations.StatusAfterAnyCommand := by
  intro v s
  obtain ⟨i, rfl, e⟩ | ⟨-, e⟩ := issueCommand_cases v s
  · obtain ⟨hmem, hne⟩ := statusesOf_subset_statusValues i _ (commandWrites_status_mem i s)
    obtain ⟨hbusy, hbit7, hdone, hecode, hle⟩ := statusFields_of_mem _ hmem hne
    refine ⟨_, e, hbusy, hbit7, hdone, hecode, hle, ?_⟩
    have h3 : encode i = 0x03#8 ↔ i = .embed := encode_inj (j := .embed)
    have h5 : encode i = 0x05#8 ↔ i = .encode := encode_inj (j := .encode)
    rw [h3, h5]
    exact commandWrites_trunc i s
  · obtain ⟨hbusy, hbit7, hdone, hecode, hle⟩ := statusFields_of_mem 0x44#8 (by decide) (by decide)
    exact ⟨_, e, hbusy, hbit7, hdone, hecode, hle, by simp [statusTrunc, statusDone]⟩

/-! ## Dependence on inputs -/

/-- Two writes of the same value, or of none, end with equal contents or leave both as they were. -/
theorem getD_eq_or_kept {α : Type} (w : Option α) (a b : α) :
    w.getD a = w.getD b ∨ (w.getD a = a ∧ w.getD b = b) := by
  cases w with
  | none => exact .inr ⟨rfl, rfl⟩
  | some x => exact .inl rfl

/-- Settles O50: both states get the same writes. -/
theorem commandsReadNoFlag : Obligations.CommandsReadNoFlag := by
  intro i s₁ s₂ h
  refine ⟨_, _, exec_eq_write i s₁, exec_eq_write i s₂, ?_⟩
  rw [commandWrites_congr h]
  exact ⟨rfl, getD_eq_or_kept .., getD_eq_or_kept .., getD_eq_or_kept .., getD_eq_or_kept ..⟩

/-! ## Waiting, register numbers and the state after reset -/

/-- Settles O8: the step's own case of an empty list of moves. -/
theorem engineWaitsForTheHost : Obligations.EngineWaitsForTheHost := by
  intro s hnil
  simp [step, hnil]

/-- Settles O14: register by register, and a number from 10 on is past every pattern. -/
theorem registerNumbers : Obligations.RegisterNumbers := by
  refine ⟨rfl, fun r => by cases r <;> rfl, fun n hn => ?_⟩
  obtain ⟨k, rfl⟩ := Nat.exists_eq_add_of_le' hn
  rfl

/-- Settles O16: R38's table, read off the reset state. -/
theorem resetValues : Obligations.ResetValues :=
  ⟨⟨rfl, rfl, rfl, rfl⟩, fun _ => ⟨rfl, rfl, rfl, rfl⟩, rfl, rfl, rfl, rfl, rfl, rfl, rfl, rfl⟩

/-- Settles O18: after reset the payload and the stream are empty and the image is shorter than its header. -/
theorem everyCommandDefinedAfterReset : Obligations.EveryCommandDefinedAfterReset :=
  ⟨rfl, rfl, rfl, rfl, rfl, rfl⟩

end Sys2Proof.Machine
end

section
/-! PROOFS. The statement of the memory family: reads have no side effect, and a command repeated at once rewrites the same
values. -/

namespace Sys2Proof.Machine

open Sys2Proof.Safety

/-- A value written twice, or kept twice, is the value written or kept once. -/
theorem getD_getD_self {α : Type} (w : Option α) (a : α) : w.getD (w.getD a) = w.getD a := by
  cases w <;> rfl

/-- Making the same writes twice is making them once. -/
theorem write_write_self (s : State) (w : Writes) : (s.write w).write w = s.write w := by
  simp only [State.write, getD_getD_self]

/-- No command writes any of its own inputs (R73). -/
theorem sameInputs_after_exec (i : Instr) (s : State) : SameInputs i (s.write (commandWrites i s)) s := by
  have hpay (hunpack : i ≠ .unpack) (hdecode : i ≠ .decode) : (s.write (commandWrites i s)).pay = s.pay := by
    simp [commandWrites_pay_matchOff i s hunpack hdecode]
  have hbit (hi : i = .unpack ∨ i = .embed) : (s.write (commandWrites i s)).bit = s.bit := by
    simp [commandWrites_bit i s hi]
  cases i with
  | pack => exact hpay nofun nofun
  | unpack => exact hbit (.inl rfl)
  | embed => exact ⟨rfl, hbit (.inr rfl), rfl, rfl⟩
  | extract => exact ⟨rfl, rfl⟩
  | encode => exact ⟨hpay nofun nofun, rfl, rfl, rfl⟩
  | decode => exact ⟨rfl, rfl⟩

/-- Settles O49: a command leaves its own inputs as they were, so run again it makes the same writes. -/
theorem commandsIdempotent : Obligations.CommandsIdempotent := by
  refine ⟨fun r s => rfl, fun i s => ⟨_, exec_eq_write i s, ?_⟩⟩
  rw [exec_eq_write, commandWrites_congr (sameInputs_after_exec i s), write_write_self]

end Sys2Proof.Machine
end

section
/-! PROOF SUPPORT. The conversions between bytes and bits and their inverses, the terminator search in terms of
`OccursAt`, and what the bit-0 plane of an embedding reads. -/

namespace Sys2Proof.Machine

open Sys2Proof.Safety

/-! ## A byte and its eight bits (R77, R78) -/

/-- The sum of R78 over the first `n` bits only. -/
def partialByte (c : List Bit) (n : Nat) : Byte :=
  (List.range n).foldl (fun acc b => acc + (bitByte (c.getD b false) <<< (7 - b))) 0#8

theorem bitsToByte_eq_partialByte (c : List Bit) : bitsToByte c = partialByte c 8 := rfl

theorem partialByte_succ (c : List Bit) (n : Nat) :
    partialByte c (n + 1) = partialByte c n + (bitByte (c.getD n false) <<< (7 - n)) := by
  simp only [partialByte, List.range_succ, List.foldl_append, List.foldl_cons, List.foldl_nil]

theorem bitByte_shiftLeft_getLsbD (x : Bit) (k i : Nat) (hi : i < 8) :
    (bitByte x <<< k).getLsbD i = (decide (i = k) && x) := by
  rw [bitByte, BitVec.getLsbD_shiftLeft, BitVec.getLsbD_setWidth, BitVec.getLsbD_ofBool]
  by_cases hk : i = k
  · subst hk; simp [hi]
  · by_cases hlt : i < k
    · simp [hlt, hk]
    · simp [show i - k ≠ 0 by omega, hk]

theorem bitByte_shiftLeft_toNat (x : Bit) (k : Nat) (hk : k < 8) :
    (bitByte x <<< k).toNat = x.toNat * 2 ^ k := by
  have hlt : 2 ^ k < 2 ^ 8 := Nat.pow_lt_pow_right (by omega) hk
  cases x with
  | false => simp [bitByte]
  | true => simpa [bitByte, Nat.shiftLeft_eq] using hlt

/-- Each summand sits at a place that is still 0, so the sum sets that bit and carries nothing. -/
theorem partialByte_getLsbD (c : List Bit) (n i : Nat) (hn : n ≤ 8) (hi : i < 8) :
    (partialByte c n).getLsbD i = (decide (7 - i < n) && c.getD (7 - i) false) := by
  induction n generalizing i with
  | zero => simp [partialByte]
  | succ n ih =>
    have hdisjoint : partialByte c n &&& (bitByte (c.getD n false) <<< (7 - n)) = 0#8 := by
      apply BitVec.eq_of_getLsbD_eq
      intro j hj
      rw [BitVec.getLsbD_and, ih j (by omega) hj, bitByte_shiftLeft_getLsbD _ _ _ hj]
      by_cases hplace : j = 7 - n
      · simp [show ¬ 7 - j < n by omega]
      · simp [hplace]
    rw [partialByte_succ, BitVec.add_eq_or_of_and_eq_zero _ _ hdisjoint, BitVec.getLsbD_or,
      ih i (by omega) hi, bitByte_shiftLeft_getLsbD _ _ _ hi]
    by_cases hplace : i = 7 - n
    · simp [hplace, show 7 - (7 - n) = n by omega]
    · simp [hplace, show 7 - i < n + 1 ↔ 7 - i < n by omega]

/-- The first `n` summands leave room for the `8 - n` to come, so no sum is ever reduced modulo 256. -/
theorem partialByte_toNat (c : List Bit) (n : Nat) (hn : n ≤ 8) :
    (partialByte c n).toNat = ((List.range n).map fun b => (c.getD b false).toNat * 2 ^ (7 - b)).sum ∧
    (partialByte c n).toNat + 2 ^ (8 - n) ≤ 2 ^ 8 := by
  induction n with
  | zero => exact ⟨rfl, by simp [partialByte]⟩
  | succ n ih =>
    obtain ⟨hsum, hroom⟩ := ih (by omega)
    have hterm : (c.getD n false).toNat * 2 ^ (7 - n) ≤ 1 * 2 ^ (7 - n) :=
      Nat.mul_le_mul_right _ (Bool.toNat_le _)
    have hpow : 2 ^ (8 - n) = 2 ^ (7 - n) * 2 := by rw [← Nat.pow_succ]; congr 1; omega
    have hpos : 0 < 2 ^ (7 - n) := Nat.two_pow_pos _
    have hvalue : (partialByte c (n + 1)).toNat =
        (partialByte c n).toNat + (c.getD n false).toNat * 2 ^ (7 - n) := by
      rw [partialByte_succ, BitVec.toNat_add, bitByte_shiftLeft_toNat _ _ (by omega),
        Nat.mod_eq_of_lt (by omega)]
    rw [hvalue, show 8 - (n + 1) = 7 - n by omega]
    refine ⟨?_, by omega⟩
    rw [hsum, List.range_succ, List.map_append, List.sum_append, List.map_singleton, List.sum_singleton]

theorem bitsToByte_toNat (c : List Bit) :
    (bitsToByte c).toNat = ((List.range 8).map fun b => (c.getD b false).toNat * 2 ^ (7 - b)).sum := by
  obtain ⟨hsum, -⟩ := partialByte_toNat c 8 (by omega)
  exact hsum

theorem bitsToByte_getLsbD (c : List Bit) (i : Nat) (hi : i < 8) :
    (bitsToByte c).getLsbD i = c.getD (7 - i) false := by
  rw [bitsToByte_eq_partialByte, partialByte_getLsbD c 8 i (by omega) hi]
  simp [show 7 - i < 8 by omega]

@[simp] theorem bitsToByte_byteToBits (x : Byte) : bitsToByte (byteToBits x) = x := by
  apply BitVec.eq_of_getLsbD_eq
  intro i hi
  rw [bitsToByte_getLsbD _ i hi, List.getD_eq_getElem?_getD, byteToBits_getElem? x _ (by omega),
    show 7 - (7 - i) = i by omega, Option.getD_some]

theorem byteToBits_bitsToByte (c : List Bit) (hc : c.length = 8) : byteToBits (bitsToByte c) = c := by
  apply List.ext_getElem?
  intro b
  by_cases hb : b < 8
  · rw [byteToBits_getElem? _ b hb, bitsToByte_getLsbD c _ (by omega), show 7 - (7 - b) = b by omega,
      List.getD_eq_getElem?_getD, List.getElem?_eq_getElem (by omega), Option.getD_some]
  · rw [List.getElem?_eq_none (by simp; omega), List.getElem?_eq_none (by omega)]

/-! ## A payload and its bits (R51, R75) -/

/-- Regrouping reads the payload's bytes back, whatever follows their bits. -/
theorem groupBytes_payloadBits_append (p : List Byte) (s : List Bit) :
    groupBytes p.length (payloadBits p ++ s) = p := by
  induction p with
  | nil => rfl
  | cons x p ih =>
    rw [payloadBits_cons, List.append_assoc, List.length_cons, groupBytes,
      List.take_left' (byteToBits_length x), List.drop_left' (byteToBits_length x),
      bitsToByte_byteToBits, ih]

/-- Regrouping reads only the bits of the bytes it answers. -/
theorem groupBytes_append (m : Nat) (s u : List Bit) (h : 8 * m ≤ s.length) :
    groupBytes m (s ++ u) = groupBytes m s := by
  induction m generalizing s with
  | zero => rfl
  | succ m ih =>
    rw [groupBytes, groupBytes, List.take_append_of_le_length (by omega),
      List.drop_append_of_le_length (by omega), ih _ (by simp; omega)]

theorem pack_injective {p q : List Byte} (h : pack p = pack q) : p = q := by
  have hlen : p.length = q.length := by
    have := congrArg List.length h
    simpa using this
  calc p = groupBytes p.length (pack p) := (groupBytes_payloadBits_append p termBits).symm
    _ = groupBytes q.length (pack q) := by rw [hlen, h]
    _ = q := groupBytes_payloadBits_append q termBits

/-- Without its terminator a frame is the payload's bits. -/
theorem pack_take_payload (p : List Byte) : (pack p).take ((pack p).length - 16) = payloadBits p := by
  rw [pack_eq, List.length_append, termBits_length, Nat.add_sub_cancel, List.take_left]

theorem pack_drop_payload (p : List Byte) : (pack p).drop ((pack p).length - 16) = termBits := by
  rw [pack_eq, List.length_append, termBits_length, Nat.add_sub_cancel, List.drop_left]

/-! ## Where the terminator occurs (R104) -/

/-- The rule's sixteen bits, position by position, are the comparison the search makes at each offset. -/
theorem occursAt_iff_prefix (s : List Bit) (k : Nat) : OccursAt s k ↔ termBits <+: s.drop k := by
  rw [termBits_eq, List.prefix_iff_getElem?]
  constructor
  · rintro ⟨-, hones, hzero⟩ t ht
    rw [List.getElem?_drop]
    by_cases hlast : t < 15
    · rw [hones t hlast, List.getElem_append_left (by simpa using hlast), List.getElem_replicate]
    · obtain rfl : t = 15 := by simp at ht; omega
      exact hzero
  · intro h
    have hzero : s[k + 15]? = some false := by simpa using h 15 (by simp)
    obtain ⟨hlen, -⟩ := List.getElem?_eq_some_iff.mp hzero
    refine ⟨by omega, fun t ht => ?_, hzero⟩
    have hone := h t (by simp; omega)
    rwa [List.getElem?_drop, List.getElem_append_left (by simpa using ht), List.getElem_replicate] at hone

theorem occursAt_cons_succ (x : Bit) (s : List Bit) (k : Nat) : OccursAt (x :: s) (k + 1) ↔ OccursAt s k := by
  simp only [occursAt_iff_prefix, List.drop_succ_cons]

theorem occursAt_zero_iff_isPrefixOf (s : List Bit) : OccursAt s 0 ↔ termBits.isPrefixOf s = true := by
  rw [occursAt_iff_prefix, List.drop_zero, List.isPrefixOf_iff_prefix]

theorem not_occursAt_nil (k : Nat) : ¬ OccursAt [] k := by
  rintro ⟨hlen, -⟩
  simp at hlen

/-- Bits appended behind an offset's sixteen bits do not matter to it. -/
theorem occursAt_append_iff (s u : List Bit) (k : Nat) (h : k + 16 ≤ s.length) :
    OccursAt (s ++ u) k ↔ OccursAt s k := by
  rw [occursAt_iff_prefix, occursAt_iff_prefix, List.drop_append_of_le_length (by omega)]
  refine ⟨fun hp => ?_, fun hp => hp.trans (List.prefix_append ..)⟩
  exact List.prefix_of_prefix_length_le hp (List.prefix_append ..) (by simp; omega)

theorem occursAt_pack (p : List Byte) : OccursAt (pack p) (8 * p.length) := by
  rw [occursAt_iff_prefix, pack_eq, List.drop_left' (payloadBits_length p)]

theorem firstOccursAt_unique {s : List Bit} {j k : Nat} (hj : FirstOccursAt s j) (hk : FirstOccursAt s k) :
    j = k := by
  obtain ⟨hj, hbeforej⟩ := hj
  obtain ⟨hk, hbeforek⟩ := hk
  obtain hlt | heq | hgt := Nat.lt_trichotomy j k
  · exact absurd hj (hbeforek j hlt)
  · exact heq
  · exact absurd hk (hbeforej k hgt)

/-- An occurrence not at the front is one of the tail, one place earlier there. -/
theorem firstOccursAt_cons_succ {x : Bit} {s : List Bit} {k : Nat} (hfront : ¬ OccursAt (x :: s) 0)
    (h : FirstOccursAt s k) : FirstOccursAt (x :: s) (k + 1) := by
  obtain ⟨hk, hbefore⟩ := h
  refine ⟨(occursAt_cons_succ x s k).mpr hk, fun j hj => ?_⟩
  cases j with
  | zero => exact hfront
  | succ j => rw [occursAt_cons_succ]; exact hbefore j (by omega)

/-- Everything the search can answer: the least offset of an occurrence, or that there is none. -/
theorem findTerm_cases (s : List Bit) :
    (∃ k, findTerm s = some k ∧ FirstOccursAt s k) ∨ (findTerm s = none ∧ ∀ k, ¬ OccursAt s k) := by
  induction s with
  | nil => exact .inr ⟨rfl, not_occursAt_nil⟩
  | cons x s ih =>
    rw [findTerm_cons]
    by_cases hfront : OccursAt (x :: s) 0
    · rw [if_pos ((occursAt_zero_iff_isPrefixOf _).mp hfront)]
      exact .inl ⟨0, rfl, hfront, nofun⟩
    · rw [if_neg (mt (occursAt_zero_iff_isPrefixOf _).mpr hfront)]
      obtain ⟨k, hk, hfirst⟩ | ⟨hnone, hno⟩ := ih
      · exact .inl ⟨k + 1, by simp [hk, Nat.add_comm], firstOccursAt_cons_succ hfront hfirst⟩
      · refine .inr ⟨by simp [hnone], fun k => ?_⟩
        cases k with
        | zero => exact hfront
        | succ k => rw [occursAt_cons_succ]; exact hno k

theorem findTerm_eq_some_iff (s : List Bit) (k : Nat) : findTerm s = some k ↔ FirstOccursAt s k := by
  obtain ⟨j, hj, hfirst⟩ | ⟨hnone, hno⟩ := findTerm_cases s
  · rw [hj, Option.some_inj]
    refine ⟨?_, firstOccursAt_unique hfirst⟩
    rintro rfl
    exact hfirst
  · rw [hnone]
    refine ⟨nofun, ?_⟩
    rintro ⟨hk, -⟩
    exact absurd hk (hno k)

theorem findTerm_eq_none_iff (s : List Bit) : findTerm s = none ↔ ∀ k, ¬ OccursAt s k := by
  obtain ⟨j, hj, hocc, -⟩ | ⟨hnone, hno⟩ := findTerm_cases s
  · rw [hj]
    exact ⟨nofun, fun hno => absurd hocc (hno j)⟩
  · exact ⟨fun _ => hno, fun _ => hnone⟩

/-- A first occurrence stays the first one whatever bits follow. -/
theorem findTerm_append {s : List Bit} {k : Nat} (h : findTerm s = some k) (u : List Bit) :
    findTerm (s ++ u) = some k := by
  rw [findTerm_eq_some_iff] at h ⊢
  obtain ⟨hk, hbefore⟩ := h
  have ⟨hlen, _⟩ := hk
  refine ⟨(occursAt_append_iff s u k hlen).mpr hk, fun j hj => ?_⟩
  rw [occursAt_append_iff s u j (by omega)]
  exact hbefore j hj

/-! ## A 0 preceded by fifteen 1s -/

theorem zeroAfterFifteenOnes_add_iff (s : List Bit) (k : Nat) :
    ZeroAfterFifteenOnes s (k + 15) ↔ OccursAt s k := by
  rw [ZeroAfterFifteenOnes, OccursAt, Nat.add_sub_cancel]
  constructor
  · rintro ⟨-, hzero, hones⟩
    obtain ⟨hlen, -⟩ := List.getElem?_eq_some_iff.mp hzero
    exact ⟨by omega, hones, hzero⟩
  · rintro ⟨-, hones, hzero⟩
    exact ⟨by omega, hzero, hones⟩

/-- Such a 0 is the last bit of an occurrence. -/
theorem exists_occursAt_of_zeroAfterFifteenOnes {s : List Bit} {z : Nat} (h : ZeroAfterFifteenOnes s z) :
    ∃ k, z = k + 15 ∧ OccursAt s k := by
  have ⟨hge, _⟩ := h
  obtain ⟨k, rfl⟩ := Nat.exists_eq_add_of_le' hge
  exact ⟨k, rfl, (zeroAfterFifteenOnes_add_iff s k).mp h⟩

theorem findTerm_eq_some_iff_firstZero (s : List Bit) (k : Nat) :
    findTerm s = some k ↔
      ZeroAfterFifteenOnes s (k + 15) ∧ ∀ y, y < k + 15 → ¬ ZeroAfterFifteenOnes s y := by
  rw [findTerm_eq_some_iff, FirstOccursAt, zeroAfterFifteenOnes_add_iff]
  refine and_congr_right fun _ => ⟨fun hbefore y hy hzero => ?_, fun hbefore j hj hocc => ?_⟩
  · obtain ⟨j, rfl, hocc⟩ := exists_occursAt_of_zeroAfterFifteenOnes hzero
    exact hbefore j (by omega) hocc
  · exact hbefore (j + 15) (by omega) ((zeroAfterFifteenOnes_add_iff s j).mpr hocc)

theorem findTerm_eq_none_iff_noZero (s : List Bit) :
    findTerm s = none ↔ ∀ y, ¬ ZeroAfterFifteenOnes s y := by
  rw [findTerm_eq_none_iff]
  refine ⟨fun hno y hzero => ?_, fun hno k hocc => ?_⟩
  · obtain ⟨k, rfl, hocc⟩ := exists_occursAt_of_zeroAfterFifteenOnes hzero
    exact hno k hocc
  · exact hno (k + 15) ((zeroAfterFifteenOnes_add_iff s k).mpr hocc)

/-- Whether a 0 is preceded by fifteen 1s is seen from the bits up to it. -/
theorem zeroAfterFifteenOnes_append_iff (u v : List Bit) (y : Nat) (h : y < u.length) :
    ZeroAfterFifteenOnes (u ++ v) y ↔ ZeroAfterFifteenOnes u y := by
  have hget (i : Nat) (hi : i ≤ y) : (u ++ v)[i]? = u[i]? := List.getElem?_append_left (by omega)
  rw [ZeroAfterFifteenOnes, ZeroAfterFifteenOnes, hget y le_rfl]
  refine and_congr_right fun hge => and_congr_right fun _ => forall₂_congr fun t ht => ?_
  rw [hget _ (by omega)]

/-- A run of at least fifteen 1s and a 0 matches fifteen places before the 0 (R105). -/
theorem findTerm_run (r : Nat) (rest : List Bit) (hr : 15 ≤ r) :
    findTerm (List.replicate r true ++ false :: rest) = some (r - 15) := by
  have hone (i : Nat) (hi : i < r) : (List.replicate r true ++ false :: rest)[i]? = some true := by
    simp [List.getElem?_append_left, hi]
  have hzero : (List.replicate r true ++ false :: rest)[r]? = some false := by simp
  rw [findTerm_eq_some_iff_firstZero, Nat.sub_add_cancel hr]
  refine ⟨⟨hr, hzero, fun t ht => hone _ (by omega)⟩, ?_⟩
  rintro y hy ⟨-, hy', -⟩
  rw [hone y hy] at hy'
  cases hy'

/-- The 0 of the earlier match would be one of the 1s of a later one that overlaps it. -/
theorem occursAt_disjoint {s : List Bit} {i j : Nat} (hi : OccursAt s i) (hj : OccursAt s j) (hij : i < j) :
    i + 16 ≤ j := by
  obtain ⟨-, -, hzero⟩ := hi
  obtain ⟨-, hones, -⟩ := hj
  by_contra hoverlap
  have hone := hones (i + 15 - j) (by omega)
  rw [show j + (i + 15 - j) = i + 15 by omega, hzero] at hone
  cases hone

/-- The terminator's own fifteen 1s hold no 0, so nothing matches earlier (R105). -/
theorem findTerm_append_termBits (u rest : List Bit) (hu : ∀ y, ¬ ZeroAfterFifteenOnes u y) :
    findTerm (u ++ (termBits ++ rest)) = some u.length := by
  rw [findTerm_eq_some_iff_firstZero, zeroAfterFifteenOnes_add_iff, occursAt_iff_prefix, List.drop_left]
  refine ⟨List.prefix_append .., fun y hy hzero => ?_⟩
  by_cases hin : y < u.length
  · exact hu y ((zeroAfterFifteenOnes_append_iff u _ y hin).mp hzero)
  · obtain ⟨-, hbit, -⟩ := hzero
    rw [List.getElem?_append_right (by omega), List.getElem?_append_left (by simp; omega),
      termBits_getElem?_one _ (by omega)] at hbit
    cases hbit

/-! ## The bit-0 plane of an embedding (R121, R122) -/

theorem muxLSB_getLsbD_zero (c : Byte) (x : Bit) : (muxLSB c x).getLsbD 0 = x := by
  cases x <;> simp [muxLSB, bitByte, Config.lsbMask]

/-- Bit 0 of the pixel bytes reads the stream as far as both go, then the pixels' own bits. -/
theorem embedPixels_map_lsb (px : List Byte) (s : List Bit) :
    (embedPixels px s).map (fun y => y.getLsbD 0) =
      s.take px.length ++ (px.map fun y => y.getLsbD 0).drop s.length := by
  induction px generalizing s with
  | nil => simp
  | cons c px ih =>
    cases s with
    | nil => simp
    | cons x s =>
      rw [embedPixels, List.map_cons, muxLSB_getLsbD_zero, ih]
      rfl

theorem extract_embed (h : Nat) (img : List Byte) (s : List Bit) (hl : h ≤ img.length) :
    extract h (embed h img s) = s.take (img.length - h) ++ (extract h img).drop s.length := by
  rw [extract, embed_drop h img s hl, embedPixels_map_lsb, List.length_drop, extract]

end Sys2Proof.Machine
end

section
/-! PROOFS. The statements of the encoding family: the command bytes, the bits of bytes and frames, the terminator
search, and how much an image holds. -/

namespace Sys2Proof.Machine

open Sys2Proof.Safety

/-! ## The command byte -/

/-- Settles O1: row by row of R71's table. -/
theorem commandTable : Obligations.CommandTable :=
  ⟨⟨rfl, rfl, rfl, rfl, rfl, rfl⟩, ⟨rfl, rfl, rfl, rfl, rfl, rfl⟩, rfl, rfl⟩

/-- Settles O3: a command's byte is the only one that decodes to it. -/
theorem decodeEncodeAgree : Obligations.DecodeEncodeAgree :=
  fun v i => (decode_eq_ok_iff v i).trans eq_comm

theorem encode_toNat_mem (i : Instr) : 1 ≤ (encode i).toNat ∧ (encode i).toNat ≤ 6 := by
  cases i <;> decide

/-- The six commands' bytes are all of 0x01 to 0x06. -/
theorem exists_encode_eq_iff (v : Byte) : (∃ i, v = encode i) ↔ 1 ≤ v.toNat ∧ v.toNat ≤ 6 := by
  constructor
  · rintro ⟨i, rfl⟩
    exact encode_toNat_mem i
  · rintro ⟨hlo, hhi⟩
    interval_cases h : v.toNat
    · exact ⟨.pack, BitVec.eq_of_toNat_eq h⟩
    · exact ⟨.unpack, BitVec.eq_of_toNat_eq h⟩
    · exact ⟨.embed, BitVec.eq_of_toNat_eq h⟩
    · exact ⟨.extract, BitVec.eq_of_toNat_eq h⟩
    · exact ⟨.encode, BitVec.eq_of_toNat_eq h⟩
    · exact ⟨.decode, BitVec.eq_of_toNat_eq h⟩

theorem exists_decode_ok_iff (v : Byte) : (∃ i, decode v = .ok i) ↔ 1 ≤ v.toNat ∧ v.toNat ≤ 6 := by
  simp only [decode_eq_ok_iff, exists_encode_eq_iff]

/-- The range of R72 in terms of its two fields: the byte's number is `8 * RSV + OPC`. -/
theorem toNat_mem_iff_fields (v : Byte) :
    (1 ≤ v.toNat ∧ v.toNat ≤ 6) ↔
      (v.extractLsb' 3 5 = 0#5 ∧ 1 ≤ (v.extractLsb' 0 3).toNat ∧ (v.extractLsb' 0 3).toNat ≤ 6) := by
  have hrsv : (v.extractLsb' 3 5).toNat = v.toNat / 8 := by
    rw [BitVec.extractLsb'_toNat, Nat.shiftRight_eq_div_pow]; omega
  have hopc : (v.extractLsb' 0 3).toNat = v.toNat % 8 := by
    rw [BitVec.extractLsb'_toNat, Nat.shiftRight_zero]
  rw [← BitVec.toNat_inj, hrsv, hopc, BitVec.toNat_zero]
  omega

/-- R174: every other byte raises `IllegalCommand`, whatever the state. -/
theorem issueCommand_illegal (v : Byte) (hv : ¬ (1 ≤ v.toNat ∧ v.toNat ≤ 6)) (s : State) :
    issueCommand v s = .next { s with status := 0x44#8 } := by
  obtain ⟨i, hi, -⟩ | ⟨-, e⟩ := issueCommand_cases v s
  · exact absurd ((exists_encode_eq_iff v).mp ⟨i, hi⟩) hv
  · exact e

theorem runMove_of_not_busy (m : HostMove) (s : State) (h : busy s = false) : runMove m s = idleMove m s := by
  simp [runMove, h]

/-- Settles O2: the range is that of the commands' bytes, and the issue of any other byte raises `IllegalCommand`. -/
theorem illegalBytesRaiseIllegalCommand : Obligations.IllegalBytesRaiseIllegalCommand := by
  intro v
  refine ⟨exists_decode_ok_iff v, toNat_mem_iff_fields v, fun hv s =>
    ⟨issueCommand_illegal v hv s, fun hidle => ?_⟩⟩
  rw [runMove_of_not_busy _ s hidle]
  exact issueCommand_illegal v hv s

/-! ## Bytes, frames and the search -/

/-- Settles O4: R78's sum sets bit `7 - b` to element `b`, and R77 reads it back from there. -/
theorem byteBitsInverse : Obligations.ByteBitsInverse :=
  ⟨fun x => ⟨byteToBits_length x, byteToBits_getElem? x, bitsToByte_byteToBits x⟩,
    fun c hc => ⟨byteToBits_bitsToByte c hc, bitsToByte_toNat c⟩⟩

/-- The frame's own terminator is an occurrence, so the search never fails on a frame. -/
theorem unpack_pack_isSome (p : List Byte) : (unpack (pack p)).isSome = true := by
  rw [Option.isSome_iff_ne_none, ne_eq, unpack_eq_none, findTerm_eq_none_iff]
  exact fun hno => hno _ (occursAt_pack p)

/-- Settles O20: a frame is the payload's bits and the terminator, and regrouping inverts the bits. -/
theorem packProperties : Obligations.PackProperties := by
  intro p
  refine ⟨pack_length p, fun j x hx b hb => ?_, ?_, unpack_pack_isSome p, fun q => pack_injective, fun q => ?_⟩
  · rw [pack_eq, List.getElem?_append_left, payloadBits_getElem? p j b hb, hx, Option.map_some]
    obtain ⟨hj, -⟩ := List.getElem?_eq_some_iff.mp hx
    rw [payloadBits_length]
    omega
  · rw [pack_drop_payload, termBits_eq]
  · simp only [pack_take_payload, payloadBits_append]

/-- Settles O23: an occurrence at `k` is such a 0 at `k + 15`, and the search answers the first. -/
theorem findTermAtFirstZero : Obligations.FindTermAtFirstZero :=
  ⟨findTerm_eq_some_iff_firstZero, findTerm_eq_none_iff_noZero, findTerm_run,
    fun _ _ _ => occursAt_disjoint, findTerm_append_termBits⟩

/-- Settles O25: the bits behind the first terminator reach neither the search nor the regrouping. -/
theorem bitsAfterTerminatorIgnored : Obligations.BitsAfterTerminatorIgnored := by
  rintro s u ⟨p, k⟩ h
  rw [unpack_eq_some] at h ⊢
  obtain ⟨hk, rfl⟩ := h
  obtain ⟨⟨hlen, -⟩, -⟩ := (findTerm_eq_some_iff s k).mp hk
  exact ⟨findTerm_append hk u, (groupBytes_append _ _ _ (by omega)).symm⟩

/-- The first bit of a byte is its bit 7, a 0 in a byte below 0x80. -/
theorem payloadBits_byteStart_ne_true (p : List Byte) (hp : ∀ x, x ∈ p → x.toNat < 0x80) (j : Nat) :
    (payloadBits p)[8 * j]? ≠ some true := by
  intro htrue
  obtain ⟨x, hx, hbit⟩ : ∃ x, p[j]? = some x ∧ x.getLsbD 7 = true := by
    rw [← Nat.add_zero (8 * j), payloadBits_getElem? p j 0 (by omega)] at htrue
    exact Option.map_eq_some_iff.mp htrue
  have hlow : x.toNat.testBit 7 = false := Nat.testBit_lt_two_pow (hp x (List.mem_of_getElem? hx))
  rw [BitVec.testBit_toNat, hbit] at hlow
  cases hlow

/-- Settles O29: any fifteen bits in a row include the first of a byte, which is a 0. -/
theorem sevenBitTextNeverCollides : Obligations.SevenBitTextNeverCollides := by
  rintro p hp z ⟨hge, -, hones⟩
  have hstart := hones (8 * ((z - 15 + 7) / 8) - (z - 15)) (by omega)
  rw [show z - 15 + (8 * ((z - 15 + 7) / 8) - (z - 15)) = 8 * ((z - 15 + 7) / 8) by omega] at hstart
  exact payloadBits_byteStart_ne_true p hp _ hstart

/-! ## What an image holds -/

/-- With room for its header the embedding half succeeds untruncated iff the stream has a pixel byte for each bit. -/
theorem embedWrites_status_eq_done_iff (h : Nat) (c : List Byte) (bits : List Bit) (x : Bool) (hl : h ≤ c.length) :
    (embedWrites h c bits x).status = 0x02#8 ↔ bits.length ≤ c.length - h := by
  rw [embedWrites, if_neg (by omega)]
  by_cases hover : c.length - h < bits.length
  · cases x <;> simp [hover]
  · simpa [hover] using Nat.le_of_not_lt hover

/-- Settles O39: the frame has `8 * PAY_LEN + 16` bits. -/
theorem encodeCapacity : Obligations.EncodeCapacity := by
  intro s hl
  refine ⟨_, exec_eq_write .encode s, ?_⟩
  have hdone := embedWrites_status_eq_done_iff s.hdrSize s.car (pack s.pay) (strict s) hl
  rw [pack_length] at hdone
  exact hdone.trans (by omega)

/-- Where the stream fits, the embedding half writes `OUT` in either mode. -/
theorem embedWrites_out_of_fits (h : Nat) (c : List Byte) (bits : List Bit) (x : Bool) (hl : h ≤ c.length)
    (hfits : bits.length ≤ c.length - h) : (embedWrites h c bits x).out = some (embed h c bits) := by
  rw [embedWrites, if_neg (by omega), if_neg (by omega)]

/-- Settles O40: the extractor reads the frame back, and behind it the carrier's own low bits. -/
theorem encodedBitPlane : Obligations.EncodedBitPlane := by
  intro s hl hfits
  have hlen : (pack s.pay).length ≤ s.car.length - s.hdrSize := by rw [pack_length]; exact hfits
  have hout : (s.write (commandWrites .encode s)).out = embed s.hdrSize s.car (pack s.pay) := by
    rw [write_out, commandWrites, embedWrites_out_of_fits _ _ _ _ hl hlen, Option.getD_some]
  refine ⟨_, exec_eq_write .encode s, ?_⟩
  rw [hout]
  calc extract s.hdrSize (embed s.hdrSize s.car (pack s.pay))
      = pack s.pay ++ (extract s.hdrSize s.car).drop (pack s.pay).length := by
        rw [extract_embed _ _ _ hl, List.take_of_length_le hlen]
    _ = payloadBits s.pay ++ (List.replicate 15 true ++ [false]) ++
          (extract s.hdrSize s.car).drop (8 * s.pay.length + 16) := by
        rw [pack_length, pack_eq, termBits_eq]

end Sys2Proof.Machine
end

section
/-! PROOF SUPPORT. The search and the regrouping on parts of a stream, what unpacking a frame answers, and the writes of
the halves where they succeed. -/

namespace Sys2Proof.Machine

open Sys2Proof.Safety

/-! ## Regrouping a part of a stream (R103) -/

/-- Bit `b` of the byte at index `j`, most significant first, is bit `8 * j + b` of the stream. -/
theorem groupBytes_getElem?_bits {m : Nat} {s : List Bit} (hm : 8 * m ≤ s.length) {j : Nat} {x : Byte}
    (hx : (groupBytes m s)[j]? = some x) {b : Nat} (hb : b < 8) : s[8 * j + b]? = some (x.getLsbD (7 - b)) := by
  have hj : j < m := by
    obtain ⟨hj, -⟩ := List.getElem?_eq_some_iff.mp hx
    simpa using hj
  rw [groupBytes_getElem? m s j hj, Option.some_inj] at hx
  rw [← hx, bitsToByte_getLsbD _ _ (by omega), show 7 - (7 - b) = b by omega, List.getD_eq_getElem?_getD,
    List.getElem?_take_of_lt hb, List.getElem?_drop, List.getElem?_eq_getElem (by omega), Option.getD_some]

theorem groupBytes_take {m n : Nat} {s : List Bit} (h : 8 * m ≤ (s.take n).length) :
    groupBytes m (s.take n) = groupBytes m s := by
  rw [← groupBytes_append m (s.take n) (s.drop n) h, List.take_append_drop]

/-- Regrouping behind the first `e` bytes leaves out just those. -/
theorem groupBytes_drop (m e : Nat) (s : List Bit) :
    groupBytes m (s.drop (8 * e)) = (groupBytes (m + e) s).drop e := by
  induction e generalizing s with
  | zero => rfl
  | succ e ih =>
    rw [show 8 * (e + 1) = 8 + 8 * e by omega, ← List.drop_drop, ih, ← Nat.add_assoc, groupBytes,
      List.drop_succ_cons]

/-- Regrouping the front of a frame reads the front of its payload. -/
theorem groupBytes_pack (p : List Byte) (m : Nat) (hm : m ≤ p.length) : groupBytes m (pack p) = p.take m := by
  have h := groupBytes_payloadBits_append (p.take m) (payloadBits (p.drop m) ++ termBits)
  rwa [List.length_take_of_le hm, ← List.append_assoc, ← payloadBits_append, List.take_append_drop] at h

/-! ## The search in a part of a stream (R104) -/

theorem occursAt_drop_iff (s : List Bit) (d j : Nat) : OccursAt (s.drop d) j ↔ OccursAt s (d + j) := by
  rw [occursAt_iff_prefix, occursAt_iff_prefix, List.drop_drop]

/-- A first occurrence not before the cut stays the first one. -/
theorem findTerm_drop {s : List Bit} {k d : Nat} (h : findTerm s = some k) (hd : d ≤ k) :
    findTerm (s.drop d) = some (k - d) := by
  rw [findTerm_eq_some_iff] at h ⊢
  obtain ⟨hk, hbefore⟩ := h
  refine ⟨?_, fun j hj => ?_⟩
  · rwa [occursAt_drop_iff, Nat.add_sub_cancel' hd]
  · rw [occursAt_drop_iff]
    exact hbefore (d + j) (by omega)

/-- An occurrence in the first `n` bits is one of the stream that lies within them. -/
theorem occursAt_take_iff (s : List Bit) (n k : Nat) : OccursAt (s.take n) k ↔ OccursAt s k ∧ k + 16 ≤ n := by
  have hsplit (hk : k + 16 ≤ (s.take n).length) : OccursAt (s.take n) k ↔ OccursAt s k := by
    rw [← occursAt_append_iff _ (s.drop n) k hk, List.take_append_drop]
  constructor
  · intro h
    have ⟨hlen, _⟩ := h
    exact ⟨(hsplit hlen).mp h, by simp at hlen; omega⟩
  · rintro ⟨h, hn⟩
    have ⟨hlen, _⟩ := h
    exact (hsplit (by simp; omega)).mpr h

/-- A first occurrence in the first `n` bits is the stream's first. -/
theorem firstOccursAt_of_take {s : List Bit} {n k : Nat} (h : FirstOccursAt (s.take n) k) : FirstOccursAt s k := by
  rw [← findTerm_eq_some_iff] at h ⊢
  simpa using findTerm_append h (s.drop n)

/-! ## Unpacking -/

theorem unpack_of_findTerm {s : List Bit} {k : Nat} (h : findTerm s = some k) :
    unpack s = some (groupBytes (k / 8) s, k) :=
  (unpack_eq_some s _ k).mpr ⟨h, rfl⟩

theorem exists_findTerm_pack (p : List Byte) : ∃ k, findTerm (pack p) = some k := by
  rw [← Option.ne_none_iff_exists', ne_eq, findTerm_eq_none_iff]
  exact fun hno => hno _ (occursAt_pack p)

/-- The search ends at the frame's own terminator at the latest. -/
theorem findTerm_pack_le {p : List Byte} {k : Nat} (h : findTerm (pack p) = some k) : k ≤ 8 * p.length := by
  obtain ⟨-, hbefore⟩ := (findTerm_eq_some_iff _ k).mp h
  exact Nat.le_of_not_lt fun hlt => hbefore _ hlt (occursAt_pack p)

/-- Unpacking a frame answers the front of its payload. -/
theorem unpack_pack_of_findTerm {p : List Byte} {k : Nat} (h : findTerm (pack p) = some k) :
    unpack (pack p) = some (p.take (k / 8), k) := by
  have hle := findTerm_pack_le h
  rw [unpack_of_findTerm h, groupBytes_pack p _ (by omega)]

/-- A 0 preceded by fifteen 1s is one of the stream's bits. -/
theorem zeroAfterFifteenOnes_lt_length {s : List Bit} {z : Nat} (h : ZeroAfterFifteenOnes s z) : z < s.length := by
  obtain ⟨-, hzero, -⟩ := h
  obtain ⟨hz, -⟩ := List.getElem?_eq_some_iff.mp hzero
  exact hz

/-- A collision in the payload's bits is one of the frame. -/
theorem zeroAfterFifteenOnes_pack {p : List Byte} {z : Nat} (h : ZeroAfterFifteenOnes (payloadBits p) z) :
    ZeroAfterFifteenOnes (pack p) z :=
  (zeroAfterFifteenOnes_append_iff _ _ z (zeroAfterFifteenOnes_lt_length h)).mpr h

/-- The frame's own terminator is the first one exactly where the payload has no collision (R108). -/
theorem findTerm_pack_iff_noCollision (p : List Byte) :
    findTerm (pack p) = some (8 * p.length) ↔ NoCollision p := by
  constructor
  · intro h z hz
    obtain ⟨-, hbefore⟩ := (findTerm_eq_some_iff_firstZero _ _).mp h
    have hlt := zeroAfterFifteenOnes_lt_length hz
    rw [payloadBits_length] at hlt
    exact hbefore z (by omega) (zeroAfterFifteenOnes_pack hz)
  · intro h
    simpa [pack_eq] using findTerm_append_termBits (payloadBits p) [] h

theorem eq_of_findTerm_pack_of_noCollision {p : List Byte} {k : Nat} (h : findTerm (pack p) = some k)
    (hno : NoCollision p) : k = 8 * p.length :=
  Option.some.inj (h.symm.trans ((findTerm_pack_iff_noCollision p).mpr hno))

theorem unpack_pack_of_noCollision {p : List Byte} (h : NoCollision p) :
    unpack (pack p) = some (p, 8 * p.length) := by
  rw [unpack_pack_of_findTerm ((findTerm_pack_iff_noCollision p).mpr h), Nat.mul_div_cancel_left _ (by omega),
    List.take_length]

/-! ## The commands where they succeed, and `NoMarkerFound` -/

theorem unpackWrites_of_findTerm {bits : List Bit} {k : Nat} (h : findTerm bits = some k) :
    unpackWrites bits = { pay := some (groupBytes (k / 8) bits), matchOff := some k, status := 0x02#8 } := by
  rw [unpackWrites, unpack_of_findTerm h]
  rfl

theorem unpackWrites_of_findTerm_none {bits : List Bit} (h : findTerm bits = none) :
    unpackWrites bits = { status := 0x14#8 } := by
  rw [unpackWrites, (unpack_eq_none bits).mpr h]
  rfl

theorem exec_unpack_of_findTerm {s : State} {k : Nat} (h : findTerm s.bit = some k) :
    exec .unpack s = .next { s with pay := groupBytes (k / 8) s.bit, matchOff := k, status := 0x02#8 } := by
  rw [exec_eq_write, commandWrites, unpackWrites_of_findTerm h]
  rfl

theorem exec_unpack_of_findTerm_none {s : State} (h : findTerm s.bit = none) :
    exec .unpack s = .next { s with status := 0x14#8 } := by
  rw [exec_eq_write, commandWrites, unpackWrites_of_findTerm_none h]
  rfl

theorem exec_decode_of_findTerm {s : State} {k : Nat} (hl : s.hdrSize ≤ s.car.length)
    (h : findTerm (extract s.hdrSize s.car) = some k) :
    exec .decode s = .next { s with
      bit := extract s.hdrSize s.car
      pay := groupBytes (k / 8) (extract s.hdrSize s.car)
      matchOff := k
      status := 0x02#8 } := by
  rw [exec_eq_write, commandWrites, if_neg (by omega), unpackWrites_of_findTerm h]
  rfl

theorem exec_decode_of_findTerm_none {s : State} (hl : s.hdrSize ≤ s.car.length)
    (h : findTerm (extract s.hdrSize s.car) = none) :
    exec .decode s = .next { s with bit := extract s.hdrSize s.car, status := 0x14#8 } := by
  rw [exec_eq_write, commandWrites, if_neg (by omega), unpackWrites_of_findTerm_none h]
  rfl

/-- The state an `ENCODE` leaves where its embedding half succeeds with the status `v` (R140). -/
def State.encoded (s : State) (v : BitVec 8) : State :=
  { s with bit := pack s.pay, out := embed s.hdrSize s.car (pack s.pay), status := v }

theorem exec_encode_of_success {s : State} (hl : s.hdrSize ≤ s.car.length)
    (hroom : strict s = false ∨ 8 * s.pay.length + 16 ≤ s.car.length - s.hdrSize) :
    exec .encode s = .next (s.encoded
      (statusSuccess (decide (s.car.length - s.hdrSize < 8 * s.pay.length + 16)))) := by
  have hcap : ¬ (strict s = true ∧ s.car.length - s.hdrSize < (pack s.pay).length) := by
    rintro ⟨hstrict, hover⟩
    obtain hlax | hfits := hroom
    · rw [hstrict] at hlax; cases hlax
    · rw [pack_length] at hover; omega
  rw [exec_eq_write, commandWrites, embedWrites, if_neg (by omega), if_neg hcap, pack_length]
  rfl

theorem exec_encode_of_fits {s : State} (hl : s.hdrSize ≤ s.car.length)
    (hfits : 8 * s.pay.length + 16 ≤ s.car.length - s.hdrSize) : exec .encode s = .next (s.encoded 0x02#8) := by
  rw [exec_encode_of_success hl (.inr hfits), decide_eq_false (by omega), statusSuccess_false]

theorem exec_encode_of_overflow {s : State} (hl : s.hdrSize ≤ s.car.length) (hlax : strict s = false)
    (hover : s.car.length - s.hdrSize < 8 * s.pay.length + 16) : exec .encode s = .next (s.encoded 0x0A#8) := by
  rw [exec_encode_of_success hl (.inl hlax), decide_eq_true hover, statusSuccess_true]

end Sys2Proof.Machine
end

section
/-! PROOFS. The bit packer's commands: `PACK`, `UNPACK`, what a collision does, and the lengths after a success. -/

namespace Sys2Proof.Machine

open Sys2Proof.Safety

/-- Settles O19: a frame is the payload's bits and one terminator behind them. -/
theorem packSerializesPayload : Obligations.PackSerializesPayload := by
  refine ⟨rfl, fun s => ⟨_, exec_pack s, rfl, rfl, ?_⟩⟩
  obtain ⟨hlen, hbits, -⟩ := packProperties s.pay
  obtain ⟨-, hones, hzero⟩ := occursAt_pack s.pay
  exact ⟨hlen, hbits, hones, hzero⟩

/-- Settles O22: the search stops at the first offset whose sixteen bits are the terminator's. -/
theorem findTermIsLeastOccurrence : Obligations.FindTermIsLeastOccurrence :=
  fun s => ⟨findTerm_eq_some_iff s, findTerm_eq_none_iff s⟩

/-- Settles O24: the first occurrence is the offset the search finds, and regrouping keeps the order of the bits. -/
theorem unpackReturnsBytesBeforeTerminator : Obligations.UnpackReturnsBytesBeforeTerminator := by
  refine ⟨rfl, fun s => ⟨fun k hk => ?_, fun hno => ?_⟩⟩
  · have ⟨⟨hlen, _⟩, _⟩ := hk
    refine ⟨_, exec_unpack_of_findTerm ((findTerm_eq_some_iff _ k).mpr hk), rfl, groupBytes_length .., ?_⟩
    exact fun j x hx b hb => groupBytes_getElem?_bits (by omega) hx hb
  · exact exec_unpack_of_findTerm_none ((findTerm_eq_none_iff _).mpr hno)

/-- The first colliding 0 ends the frame's first terminator. -/
theorem findTerm_pack_of_firstCollision {p : List Byte} {z : Nat} (hz : ZeroAfterFifteenOnes (payloadBits p) z)
    (hfirst : ∀ y, y < z → ¬ ZeroAfterFifteenOnes (payloadBits p) y) : findTerm (pack p) = some (z - 15) := by
  have ⟨hge, _⟩ := hz
  have hlt := zeroAfterFifteenOnes_lt_length hz
  rw [findTerm_eq_some_iff_firstZero, Nat.sub_add_cancel hge]
  refine ⟨zeroAfterFifteenOnes_pack hz, fun y hy hzero => hfirst y hy ?_⟩
  exact (zeroAfterFifteenOnes_append_iff _ _ y (by omega)).mp hzero

/-- The terminator's own fifteen 1s are no 0. -/
theorem not_zeroAfterFifteenOnes_pack_ones (p : List Byte) (y : Nat) (hlo : 8 * p.length ≤ y)
    (hhi : y < 8 * p.length + 15) : ¬ ZeroAfterFifteenOnes (pack p) y := by
  rintro ⟨-, hzero, -⟩
  obtain ⟨-, hones, -⟩ := occursAt_pack p
  have hone := hones (y - 8 * p.length) (by omega)
  rw [Nat.add_sub_cancel' hlo, hzero] at hone
  cases hone

/-- Settles O27: a collision is a terminator inside the payload's bits, and the first one ends the search. -/
theorem collisionTruncatesEarly : Obligations.CollisionTruncatesEarly := by
  refine ⟨fun p => ⟨findTerm_pack_iff_noCollision p, fun z hz hfirst => ⟨?_, ?_⟩,
    not_zeroAfterFifteenOnes_pack_ones p⟩, by decide, by decide, by decide, by decide⟩
  · rw [← payloadBits_length]
    exact zeroAfterFifteenOnes_lt_length hz
  · exact unpack_pack_of_findTerm (findTerm_pack_of_firstCollision hz hfirst)

/-- Unpacking gives the whole payload back only where the search gets to the frame's own terminator. -/
theorem take_findTerm_pack_eq_iff {p : List Byte} {k : Nat} (h : findTerm (pack p) = some k) :
    p.take (k / 8) = p ↔ NoCollision p := by
  have hle := findTerm_pack_le h
  rw [List.take_eq_self_iff, ← findTerm_pack_iff_noCollision, h, Option.some_inj]
  omega

/-- Settles O28: the search ends at the frame's terminator or before it, so the front of the payload comes back. -/
theorem packThenUnpack : Obligations.PackThenUnpack := by
  refine ⟨fun p => unpack_pack_of_noCollision, by decide, fun p => ?_, fun s => ?_⟩
  · obtain ⟨k, hk⟩ := exists_findTerm_pack p
    exact ⟨_, k, unpack_pack_of_findTerm hk, List.take_prefix ..⟩
  · obtain ⟨k, hk⟩ := exists_findTerm_pack s.pay
    have hle := findTerm_pack_le hk
    refine ⟨_, _, exec_pack s, exec_unpack_of_findTerm hk, rfl, ?_⟩
    simp only [commit_bit, packHalf_bit]
    rw [groupBytes_pack _ _ (by omega)]
    exact ⟨List.take_prefix .., take_findTerm_pack_eq_iff hk, eq_of_findTerm_pack_of_noCollision hk⟩

/-- Settles O36: the larger header hides the first `8 * e` bits of the stream, which are `e` whole bytes. -/
theorem headerSizeMismatch : Obligations.HeaderSizeMismatch := by
  intro h e c p k _ hunpack hk
  obtain ⟨hfind, rfl⟩ := (unpack_eq_some _ p k).mp hunpack
  have hhidden : extract (h + 8 * e) c = (extract h c).drop (8 * e) := by
    rw [extract, extract, ← List.map_drop, List.drop_drop]
  rw [hhidden, unpack_of_findTerm (findTerm_drop hfind hk), groupBytes_drop,
    show (k - 8 * e) / 8 + e = k / 8 by omega]

/-- The embedding half ends with `DONE = 1` only where it wrote `OUT`. -/
theorem embedWrites_out_of_done {h : Nat} {c : List Byte} {bits : List Bit} {x : Bool}
    (hdone : (embedWrites h c bits x).status.getLsbD 1 = true) :
    (embedWrites h c bits x).out = some (embed h c bits) := by
  unfold embedWrites at hdone ⊢
  split_ifs at hdone ⊢
  · simp at hdone
  · simp at hdone
  · rfl

/-- The unpacking half ends with `DONE = 1` only where the search found a terminator. -/
theorem exists_findTerm_of_unpackWrites_done {bits : List Bit} (hdone : (unpackWrites bits).status.getLsbD 1 = true) :
    ∃ k, findTerm bits = some k := by
  cases h : findTerm bits with
  | some k => exact ⟨k, rfl⟩
  | none =>
    rw [unpackWrites_of_findTerm_none h] at hdone
    cases hdone

/-- Settles O47: a success made the command's writes, and each of them has the length its rule gives. -/
theorem lengthsAfterSuccess : Obligations.LengthsAfterSuccess := by
  intro i s t h hdone
  obtain rfl : _ = t := Host.Outcome.next.inj ((exec_eq_write i s).symm.trans h)
  rw [write_status] at hdone
  refine ⟨?_, ?_, ?_, ?_⟩
  · rintro (rfl | rfl) <;> simp [outLen, carLen, commandWrites, embedWrites_out_of_done hdone]
  · rintro rfl
    simp [bitLen, payLen, commandWrites]
  · rintro rfl
    by_cases hsmall : s.car.length < s.hdrSize
    · simp [commandWrites, hsmall] at hdone
    · simp [bitLen, carLen, commandWrites, hsmall]
  · rintro rfl
    obtain ⟨k, hk⟩ := exists_findTerm_of_unpackWrites_done hdone
    obtain ⟨⟨hlen, -⟩, -⟩ := (findTerm_eq_some_iff _ k).mp hk
    simpa [payLen, bitLen, commandWrites, unpackWrites_of_findTerm hk] using hlen

end Sys2Proof.Machine
end

section
/-! PROOFS. The composite commands' round trips: what `DECODE` reads back from the image an `ENCODE` wrote. -/

namespace Sys2Proof.Machine

open Sys2Proof.Safety

/-! ## Steps of an idle engine -/

/-- While the engine is idle a step of a run makes the host's next move. -/
theorem run_succ_of_idle {s t : State} {m : HostMove} {rest : List HostMove} {n : Nat} (hhost : s.host = m :: rest)
    (hidle : busy s = false) (hmove : idleMove m { s with host := rest } = .next t) :
    Host.Core.run Sys2Proof.core (n + 1) s = Host.Core.run Sys2Proof.core n t := by
  have hstep : step s = .next t := by
    rw [← hmove, ← runMove_of_not_busy m { s with host := rest } hidle, step, hhost]
  have hcore : Sys2Proof.core.step s = .next t := hstep
  simp only [Host.Core.run, hcore]

/-! ## The round trip -/

/-- The extractor reads a frame that fits back, and unpacking stops at its first terminator. -/
theorem findTerm_extract_embed_pack {h : Nat} {c p : List Byte} {k : Nat} (hl : h ≤ c.length)
    (hfits : 8 * p.length + 16 ≤ c.length - h) (hk : findTerm (pack p) = some k) :
    findTerm (extract h (embed h c (pack p))) = some k ∧
      groupBytes (k / 8) (extract h (embed h c (pack p))) = p.take (k / 8) := by
  have hle := findTerm_pack_le hk
  rw [extract_embed _ _ _ hl, List.take_of_length_le (by simpa using hfits)]
  refine ⟨findTerm_append hk _, ?_⟩
  rw [groupBytes_append _ _ _ (by rw [pack_length]; omega), groupBytes_pack _ _ (by omega)]

theorem busy_of_status_done {s : State} (h : s.status = 0x02#8) : busy s = false := by
  rw [busy, h]
  decide

/-- The moves `ENCODE`, `COPY OUT -> CAR`, `DECODE` where the frame fits: the carrier copied back holds the frame, and
the search in it stops where it stops in the frame. -/
theorem run_encode_copy_decode {s : State} {k : Nat} (hidle : busy s = false) (hl : s.hdrSize ≤ s.car.length)
    (hfits : 8 * s.pay.length + 16 ≤ s.car.length - s.hdrSize) (hk : findTerm (pack s.pay) = some k) :
    ∃ t, Host.Core.run Sys2Proof.core 3
        { s with host := [.writeCmd 0x05#8, .copyOutToCar, .writeCmd 0x06#8] } = .next t ∧
      t.status = 0x02#8 ∧ t.matchOff = k ∧ t.pay = s.pay.take (k / 8) := by
  obtain ⟨hfind, hbytes⟩ := findTerm_extract_embed_pack hl hfits hk
  have hencode (moves : List HostMove) :
      exec .encode { s with host := moves } = .next (State.encoded { s with host := moves } 0x02#8) :=
    exec_encode_of_fits hl hfits
  have hdecode := exec_decode_of_findTerm (s := moveCopyOutToCar (State.encoded { s with host := [] } 0x02#8))
    (by simpa [State.encoded] using hl) hfind
  have hrun := calc
    Host.Core.run Sys2Proof.core 3 { s with host := [.writeCmd 0x05#8, .copyOutToCar, .writeCmd 0x06#8] }
      = Host.Core.run Sys2Proof.core 2
          (State.encoded { s with host := [.copyOutToCar, .writeCmd 0x06#8] } 0x02#8) :=
        run_succ_of_idle rfl hidle (hencode _)
    _ = Host.Core.run Sys2Proof.core 1
          (moveCopyOutToCar (State.encoded { s with host := [.writeCmd 0x06#8] } 0x02#8)) :=
        run_succ_of_idle rfl (busy_of_status_done rfl) rfl
    _ = .next _ := run_succ_of_idle rfl (busy_of_status_done rfl) hdecode
  exact ⟨_, hrun, rfl, rfl, hbytes⟩

theorem run_loadCar_loadPay {s : State} (hidle : busy s = false) (c p : List Byte) (moves : List HostMove) (n : Nat) :
    Host.Core.run Sys2Proof.core (n + 2) { s with host := .loadCar c :: .loadPay p :: moves } =
      Host.Core.run Sys2Proof.core n { s with car := c, pay := p, host := moves } :=
  calc Host.Core.run Sys2Proof.core (n + 2) { s with host := .loadCar c :: .loadPay p :: moves }
      = Host.Core.run Sys2Proof.core (n + 1) { s with car := c, host := .loadPay p :: moves } :=
        run_succ_of_idle rfl hidle rfl
    _ = Host.Core.run Sys2Proof.core n { s with car := c, pay := p, host := moves } :=
        run_succ_of_idle rfl hidle rfl

/-- Settles O41: the two loads bring the carrier and the payload, and the other three moves read the frame back. -/
theorem encodeCopyDecodeRoundTrip : Obligations.EncodeCopyDecodeRoundTrip := by
  refine ⟨fun h c p hl hfits hno => ?_, fun s c p hidle hl hfits => ?_⟩
  · obtain ⟨hfind, hbytes⟩ :=
      findTerm_extract_embed_pack hl hfits ((findTerm_pack_iff_noCollision p).mpr hno)
    rw [unpack_of_findTerm hfind, hbytes, Nat.mul_div_cancel_left _ (by omega), List.take_length]
  · obtain ⟨k, hk⟩ := exists_findTerm_pack p
    obtain ⟨t, hrun, hstatus, rfl, hpay⟩ :=
      run_encode_copy_decode (s := { s with car := c, pay := p }) hidle hl hfits hk
    refine ⟨t, (run_loadCar_loadPay hidle c p _ 3).trans hrun, hstatus, hk, hpay, fun hno => ?_⟩
    exact ⟨hpay.trans ((take_findTerm_pack_eq_iff hk).mpr hno), eq_of_findTerm_pack_of_noCollision hk hno⟩

/-! ## The truncated round trip -/

/-- The image keeps the first bits of a frame that does not fit. -/
theorem extract_embed_of_overflow {h : Nat} {c : List Byte} {s : List Bit} (hl : h ≤ c.length)
    (hover : c.length - h ≤ s.length) : extract h (embed h c s) = s.take (c.length - h) := by
  rw [extract_embed _ _ _ hl, List.drop_of_length_le (by simpa using hover), List.append_nil]

/-- A frame without a collision holds no terminator but its own, which a cut frame lacks. -/
theorem not_occursAt_cut_pack {p : List Byte} (hno : NoCollision p) {n : Nat} (hn : n < 8 * p.length + 16) (k : Nat) :
    ¬ OccursAt ((pack p).take n) k := by
  rw [occursAt_take_iff]
  rintro ⟨hocc, hk⟩
  obtain ⟨-, hbefore⟩ := (findTerm_eq_some_iff _ _).mp ((findTerm_pack_iff_noCollision p).mpr hno)
  exact hbefore k (by omega) hocc

/-- The bytes before a terminator that a cut frame holds are the payload's. -/
theorem groupBytes_cut_pack {p : List Byte} {n k : Nat} (hk : FirstOccursAt ((pack p).take n) k) :
    groupBytes (k / 8) ((pack p).take n) = p.take (k / 8) := by
  have ⟨⟨hlen, _⟩, _⟩ := hk
  have hle := findTerm_pack_le ((findTerm_eq_some_iff _ k).mpr (firstOccursAt_of_take hk))
  rw [groupBytes_take (by omega), groupBytes_pack p _ (by omega)]

/-- Settles O42: the decoder unpacks the part of the frame the image kept. -/
theorem truncatedRoundTrip : Obligations.TruncatedRoundTrip := by
  intro s hlax hl hover
  have hkept : extract s.hdrSize (embed s.hdrSize s.car (pack s.pay)) =
      (pack s.pay).take (s.car.length - s.hdrSize) :=
    extract_embed_of_overflow hl (by rw [pack_length]; omega)
  have hcopied : (moveCopyOutToCar (s.encoded 0x0A#8)).hdrSize ≤
      (moveCopyOutToCar (s.encoded 0x0A#8)).car.length := by
    simpa [State.encoded] using hl
  obtain ⟨k, hfind, hk⟩ | ⟨hnone, hno⟩ := findTerm_cases ((pack s.pay).take (s.car.length - s.hdrSize))
  · have ⟨hocc, _⟩ := hk
    refine ⟨_, _, exec_encode_of_overflow hl hlax hover, rfl, hkept,
      exec_decode_of_findTerm hcopied ((congrArg findTerm hkept).trans hfind), fun hno => absurd hocc (hno k),
      fun hfree => absurd hocc (not_occursAt_cut_pack hfree hover k), fun j hj => ?_⟩
    obtain rfl := firstOccursAt_unique hk hj
    exact ⟨rfl, rfl, (congrArg _ hkept).trans (groupBytes_cut_pack hk)⟩
  · refine ⟨_, _, exec_encode_of_overflow hl hlax hover, rfl, hkept,
      exec_decode_of_findTerm_none hcopied ((congrArg findTerm hkept).trans hnone), fun _ => rfl, fun _ => rfl, ?_⟩
    rintro j ⟨hocc, -⟩
    exact absurd hocc (hno j)

end Sys2Proof.Machine
end

section
/-! PROOFS. The streaming circuits (R107, R110): the serializer emits the frame, and the one-pass detector unpacks. -/

namespace Sys2Proof.Machine

open Sys2Proof.Safety

/-! ## The serializer (R110) -/

/-- The next `k` bits a shift register emits, bit 7 first. -/
def shiftedOut (v : Byte) (k : Nat) : List Bit :=
  match k with
  | 0 => []
  | k + 1 => v.getLsbD 7 :: shiftedOut (v <<< 1) k

theorem shiftedOut_getElem? (v : Byte) (k b : Nat) (hb : b < k) (hb8 : b < 8) :
    (shiftedOut v k)[b]? = some (v.getLsbD (7 - b)) := by
  induction k generalizing v b with
  | zero => omega
  | succ k ih =>
    cases b with
    | zero => rfl
    | succ b =>
      rw [shiftedOut, List.getElem?_cons_succ, ih _ b (by omega) (by omega), BitVec.getLsbD_shiftLeft]
      simp [show 7 - b < 8 by omega, show ¬ 7 - b = 0 by omega, show 7 - b - 1 = 7 - (b + 1) by omega]

@[simp] theorem shiftedOut_length (v : Byte) (k : Nat) : (shiftedOut v k).length = k := by
  induction k generalizing v with
  | zero => rfl
  | succ k ih => rw [shiftedOut, List.length_cons, ih]

/-- A register just loaded emits the byte's bits, most significant first (R77). -/
theorem shiftedOut_eight (v : Byte) : shiftedOut v 8 = byteToBits v := by
  apply List.ext_getElem?
  intro b
  by_cases hb : b < 8
  · rw [shiftedOut_getElem? v 8 b hb hb, byteToBits_getElem? v b hb]
  · rw [List.getElem?_eq_none (by simp; omega), List.getElem?_eq_none (by simp; omega)]

/-- The bits a serializer has still to emit. -/
def Serializer.pending (r : Serializer) : List Bit :=
  shiftedOut r.sr r.left ++ (payloadBits r.rest ++ termBits.drop r.termOut)

/-- The terminator bit `n` stands in front of those after it. -/
theorem termBits_drop_of_lt {n : Nat} (h : n < Config.termLen) :
    termBits.drop n = Config.term.getLsbD (15 - n) :: termBits.drop (n + 1) := by
  have hlen : n < termBits.length := h
  rw [List.drop_eq_getElem_cons hlen]
  simp [termBits]

/-- Everything a step of the serializer can do: emit the first pending bit, or nothing where none is pending. -/
theorem serializerStep_cases (r : Serializer) :
    (serializerStep r = none ∧ r.pending = []) ∨
    ∃ x r', serializerStep r = some (x, r') ∧ r.pending = x :: r'.pending := by
  obtain ⟨sr, left, rest, termOut⟩ := r
  match left, rest with
  | k + 1, rest => exact .inr ⟨_, _, rfl, rfl⟩
  | 0, x :: xs =>
    refine .inr ⟨_, _, rfl, ?_⟩
    simp only [Serializer.pending, payloadBits_cons, ← shiftedOut_eight x]
    rfl
  | 0, [] =>
    by_cases hterm : termOut < Config.termLen
    · exact .inr ⟨_, _, if_pos hterm, termBits_drop_of_lt hterm⟩
    · exact .inl ⟨if_neg hterm, List.drop_eq_nil_of_le (Nat.le_of_not_lt hterm)⟩

/-- The serializer emits its pending bits in order, one per step. -/
theorem serializerRun_eq_take (n : Nat) (r : Serializer) : serializerRun n r = r.pending.take n := by
  induction n generalizing r with
  | zero => simp [serializerRun]
  | succ n ih =>
    obtain ⟨hstep, hpending⟩ | ⟨x, r', hstep, hpending⟩ := serializerStep_cases r
    · rw [serializerRun, hstep, hpending, List.take_nil]
    · rw [serializerRun, hstep, hpending, List.take_succ_cons, ← ih]

/-- Settles O21: at the start of `PACK` the bits to emit are the frame. -/
theorem serializerEmitsPack : Obligations.SerializerEmitsPack :=
  fun p n => serializerRun_eq_take n (serializerStart p)

/-! ## Shift registers of the detector (R107) -/

/-- A register of any width after the bits of `v` were shifted in at its low end. -/
def shiftedIn (w : Nat) (v : List Bit) : BitVec w :=
  v.foldl (fun reg x => (reg <<< 1) ||| (BitVec.ofBool x).setWidth w) 0

theorem shiftedIn_append_singleton (w : Nat) (v : List Bit) (x : Bit) :
    shiftedIn w (v ++ [x]) = (shiftedIn w v <<< 1) ||| (BitVec.ofBool x).setWidth w := by
  simp only [shiftedIn, List.foldl_append, List.foldl_cons, List.foldl_nil]

/-- Bit `i` of the register is the bit shifted in `i` bits before the last. -/
theorem shiftedIn_getLsbD (w : Nat) (v : List Bit) (i : Nat) (hi : i < w) :
    (shiftedIn w v).getLsbD i = v.reverse.getD i false := by
  induction v using List.reverseRecOn generalizing i with
  | nil => simp [shiftedIn]
  | append_singleton v x ih =>
    rw [shiftedIn_append_singleton, BitVec.getLsbD_or, BitVec.getLsbD_shiftLeft, BitVec.getLsbD_setWidth,
      BitVec.getLsbD_ofBool, List.reverse_concat]
    cases i with
    | zero => simp [hi]
    | succ i => simp [hi, ih i (by omega)]

/-- Eight bits shifted in are the byte of R78. -/
theorem shiftedIn_eq_bitsToByte (c : List Bit) (hc : c.length = 8) : shiftedIn 8 c = bitsToByte c := by
  apply BitVec.eq_of_getLsbD_eq
  intro i hi
  rw [shiftedIn_getLsbD 8 c i hi, bitsToByte_getLsbD c i hi, List.getD_eq_getElem?_getD, List.getD_eq_getElem?_getD,
    List.getElem?_reverse (by omega), hc]

/-- The bits of a window, the oldest (bit 15) first. -/
def windowBits (v : Word16) : List Bit := (List.range 16).map fun t => v.getLsbD (15 - t)

theorem windowBits_term : windowBits Config.term = termBits := rfl

theorem windowBits_getElem? (v : Word16) (t : Nat) (ht : t < 16) :
    (windowBits v)[t]? = some (v.getLsbD (15 - t)) := by
  simp [windowBits, ht]

theorem windowBits_injective {v w : Word16} (h : windowBits v = windowBits w) : v = w := by
  apply BitVec.eq_of_getLsbD_eq
  intro i hi
  have hbit := congrArg (·[15 - i]?) h
  simpa [windowBits_getElem? _ (15 - i) (by omega), show 15 - (15 - i) = i by omega] using hbit

/-- Once sixteen bits were read the window holds the last sixteen. -/
theorem windowBits_shiftedIn {u : List Bit} {k : Nat} (hu : u.length = k + 16) :
    windowBits (shiftedIn 16 u) = u.drop k := by
  apply List.ext_getElem?
  intro t
  by_cases ht : t < 16
  · rw [windowBits_getElem? _ t ht, shiftedIn_getLsbD 16 u _ (by omega), List.getD_eq_getElem?_getD,
      List.getElem?_reverse (by omega), List.getElem?_drop, show u.length - 1 - (15 - t) = k + t by omega,
      List.getElem?_eq_getElem (by omega), Option.getD_some]
  · rw [List.getElem?_eq_none (by simp [windowBits]; omega), List.getElem?_eq_none (by simp; omega)]

/-- The window is `TERM` exactly where the last sixteen bits read are the terminator. -/
theorem shiftedIn_eq_term_iff {u : List Bit} {k : Nat} (hu : u.length = k + 16) :
    shiftedIn 16 u = Config.term ↔ OccursAt u k := by
  have hbits := windowBits_shiftedIn hu
  rw [occursAt_iff_prefix, ← hbits, ← windowBits_term]
  constructor
  · intro h
    rw [h]
  · intro h
    exact (windowBits_injective (h.eq_of_length (by simp [windowBits]))).symm

/-! ## The deserializer (R107) -/

theorem groupBytes_succ (m : Nat) (s : List Bit) :
    groupBytes (m + 1) s = groupBytes m s ++ [bitsToByte ((s.drop (8 * m)).take 8)] := by
  induction m generalizing s with
  | zero => rfl
  | succ m ih =>
    rw [groupBytes, ih, List.drop_drop, show 8 + 8 * m = 8 * (m + 1) by omega]
    rfl

/-- The detector with the bits `v` handed to its deserializer: their whole bytes written, the rest in the accumulator
(R107). -/
def Detector.holding (d : Detector) (v : List Bit) : Detector :=
  { d with
    acc := shiftedIn 8 (v.drop (8 * (v.length / 8)))
    cnt := v.length % 8
    written := groupBytes (v.length / 8) v }

theorem deserialize_holding (d : Detector) (v : List Bit) (x : Bit) :
    deserialize (d.holding v) x = d.holding (v ++ [x]) := by
  have hlen : (v ++ [x]).length = v.length + 1 := by simp
  have hshift : shiftAcc (d.holding v).acc x = shiftedIn 8 ((v ++ [x]).drop (8 * (v.length / 8))) := by
    rw [List.drop_append_of_le_length (by omega), shiftedIn_append_singleton]
    rfl
  by_cases hfull : (d.holding v).cnt + 1 = 8
  · have hmod : v.length % 8 + 1 = 8 := hfull
    have hbyte : ((v ++ [x]).drop (8 * (v.length / 8))).length = 8 := by simp; omega
    have hbytes : groupBytes (v.length / 8 + 1) (v ++ [x]) =
        groupBytes (v.length / 8) v ++ [shiftAcc (d.holding v).acc x] := by
      rw [groupBytes_succ, groupBytes_append _ _ _ (by omega), List.take_of_length_le (by omega), hshift,
        shiftedIn_eq_bitsToByte _ hbyte]
    have hnone : (v ++ [x]).drop (8 * (v.length / 8 + 1)) = [] := List.drop_of_length_le (by simp; omega)
    rw [deserialize, if_pos hfull, Detector.holding, Detector.holding, hlen,
      show (v.length + 1) / 8 = v.length / 8 + 1 by omega, show (v.length + 1) % 8 = 0 by omega, hbytes, hnone]
    rfl
  · have hmod : v.length % 8 + 1 ≠ 8 := hfull
    rw [deserialize, if_neg hfull, hshift, Detector.holding, Detector.holding, hlen,
      show (v.length + 1) / 8 = v.length / 8 by omega, show (v.length + 1) % 8 = v.length % 8 + 1 by omega,
      groupBytes_append _ v [x] (by omega)]

/-! ## The detector (R107) -/

/-- The detector's registers after the bits `u`, no terminator having ended in them: the last fifteen bits wait in the
window, and those before them went to the deserializer. -/
def detectorAfter (u : List Bit) : Detector :=
  Detector.holding { detectorStart with win := shiftedIn 16 u, n := u.length } (u.take (u.length - 15))

/-- Reading a bit shifts it into the window and leaves the deserializer as it was. -/
theorem detectorShift_detectorAfter (u : List Bit) (x : Bit) :
    detectorShift (detectorAfter u) x =
      Detector.holding { detectorStart with win := shiftedIn 16 (u ++ [x]), n := u.length + 1 }
        (u.take (u.length - 15)) := by
  rw [shiftedIn_append_singleton]
  rfl

theorem detectorAfter_append_singleton (u : List Bit) (x : Bit) :
    detectorAfter (u ++ [x]) =
      Detector.holding { detectorStart with win := shiftedIn 16 (u ++ [x]), n := u.length + 1 }
        ((u ++ [x]).take (u.length + 1 - 15)) := by
  rw [detectorAfter, List.length_append, List.length_singleton]

/-- The bit that leaves the full window is the next one for the deserializer. -/
theorem take_window_bit {u : List Bit} {k : Nat} (hu : u.length = k + 15) (x : Bit) :
    u.take k ++ [(shiftedIn 16 (u ++ [x])).getLsbD 15] = (u ++ [x]).take (k + 1) := by
  have hlen : (u ++ [x]).length = k + 16 := by simp [hu]
  have hbit : (u ++ [x])[k]? = some ((shiftedIn 16 (u ++ [x])).getLsbD 15) := by
    rw [← windowBits_getElem? _ 0 (by omega), windowBits_shiftedIn hlen, List.getElem?_drop, Nat.add_zero]
  rw [List.take_add_one, hbit, List.take_append_of_le_length (by omega)]
  rfl

/-- The detector stops at the bit that ends a terminator. -/
theorem detectorRun_cons_of_occursAt {u : List Bit} {k : Nat} (hu : u.length = k + 15) (x : Bit) (s : List Bit)
    (h : OccursAt (u ++ [x]) k) :
    detectorRun (detectorAfter u) (x :: s) = some (groupBytes (k / 8) (u.take k), k) := by
  have hterm := (shiftedIn_eq_term_iff (by simp [hu] : (u ++ [x]).length = k + 16)).mpr h
  rw [detectorRun, detectorShift_detectorAfter, hterm]
  simp [Detector.holding, hu]

/-- Any other bit is read, and the one that leaves the window, if it is full, deserialized. -/
theorem detectorRun_cons_of_not_occursAt {u : List Bit} {x : Bit} (s : List Bit) (h : ∀ k, ¬ OccursAt (u ++ [x]) k) :
    detectorRun (detectorAfter u) (x :: s) = detectorRun (detectorAfter (u ++ [x])) s := by
  rw [detectorAfter_append_singleton]
  by_cases hfull : 15 ≤ u.length
  · obtain ⟨k, hu⟩ := Nat.exists_eq_add_of_le' hfull
    have hterm := mt (shiftedIn_eq_term_iff (by simp [hu] : (u ++ [x]).length = k + 16)).mp (h k)
    have htake : (u ++ [x]).take (u.length + 1 - 15) =
        u.take (u.length - 15) ++ [(shiftedIn 16 (u ++ [x])).getLsbD 15] := by
      rw [show u.length + 1 - 15 = k + 1 by omega, show u.length - 15 = k by omega, take_window_bit hu]
    rw [htake, ← deserialize_holding, detectorRun, detectorShift_detectorAfter]
    exact (if_pos (Nat.succ_le_succ hfull)).trans (if_neg hterm)
  · rw [show u.length + 1 - 15 = u.length - 15 by omega, List.take_append_of_le_length (by omega), detectorRun,
      detectorShift_detectorAfter]
    exact if_neg (mt Nat.le_of_succ_le_succ hfull)

/-- An occurrence in a stream one bit longer is an old one or ends at the new bit. -/
theorem occursAt_append_singleton {u : List Bit} {x : Bit} {k : Nat} (h : OccursAt (u ++ [x]) k) :
    OccursAt u k ∨ u.length = k + 15 := by
  have ⟨hlen, _⟩ := h
  rw [List.length_append, List.length_singleton] at hlen
  by_cases hin : k + 16 ≤ u.length
  · exact .inl ((occursAt_append_iff u [x] k hin).mp h)
  · exact .inr (by omega)

/-- From where no terminator has ended yet, the detector's answer is that of `unpack` on the whole stream. -/
theorem detectorRun_detectorAfter (u s : List Bit) (hu : ∀ k, ¬ OccursAt u k) :
    detectorRun (detectorAfter u) s = unpack (u ++ s) := by
  induction s generalizing u with
  | nil => rw [List.append_nil, (unpack_eq_none u).mpr ((findTerm_eq_none_iff u).mpr hu), detectorRun]
  | cons x s ih =>
    rw [List.append_cons]
    obtain ⟨k, hfind, hk, -⟩ | ⟨-, hx⟩ := findTerm_cases (u ++ [x])
    · have hlen : u.length = k + 15 := (occursAt_append_singleton hk).resolve_left (hu k)
      rw [detectorRun_cons_of_occursAt hlen x s hk, unpack_of_findTerm (findTerm_append hfind s),
        groupBytes_take (by simp [hlen]; omega), List.append_assoc, groupBytes_append _ u _ (by omega)]
    · rw [detectorRun_cons_of_not_occursAt s hx, ih _ hx]

/-- Settles O26: the detector has read nothing at the start. -/
theorem streamingDetectorIsUnpack : Obligations.StreamingDetectorIsUnpack :=
  fun s => detectorRun_detectorAfter [] s not_occursAt_nil

end Sys2Proof.Machine
end

section
/-! PROOFS. The carrier codec: `MuxLSB`, and what `EMBED` and `EXTRACT` do to the image byte by byte. -/

namespace Sys2Proof.Machine

open Sys2Proof.Safety

/-! ## `MuxLSB` (R122) -/

theorem muxLSB_eq (c : Byte) (x : Bit) : muxLSB c x = (c &&& 0xFE#8) ||| (if x then 1#8 else 0#8) := by
  rw [muxLSB, bitByte_eq, Config.lsbMask]

/-- `LSB_MASK` keeps every bit but bit 0 (R7). -/
theorem lsbMask_getLsbD (b : Nat) (hb : b < 8) : Config.lsbMask.getLsbD b = decide (0 < b) := by
  interval_cases b <;> rfl

theorem muxLSB_getLsbD_of_pos (c : Byte) (x : Bit) (b : Nat) (hpos : 0 < b) :
    (muxLSB c x).getLsbD b = c.getLsbD b := by
  by_cases hb : b < 8
  · have hbit : (bitByte x).getLsbD b = false := by
      simpa [hpos.ne'] using bitByte_shiftLeft_getLsbD x 0 b hb
    rw [muxLSB, BitVec.getLsbD_or, BitVec.getLsbD_and, lsbMask_getLsbD b hb, hbit]
    simp [hpos]
  · rw [BitVec.getLsbD_of_ge _ _ (by omega), BitVec.getLsbD_of_ge _ _ (by omega)]

/-- A byte is its bit 0 and its upper seven bits. -/
theorem byte_ext_lsb {c d : Byte} (hlsb : c.getLsbD 0 = d.getLsbD 0)
    (hupper : ∀ b, 0 < b → c.getLsbD b = d.getLsbD b) : c = d := by
  apply BitVec.eq_of_getLsbD_eq
  rintro (_ | b) -
  · exact hlsb
  · exact hupper _ (by omega)

theorem muxLSB_own_lsb (c : Byte) : muxLSB c (c.getLsbD 0) = c :=
  byte_ext_lsb (muxLSB_getLsbD_zero ..) (muxLSB_getLsbD_of_pos _ _)

/-- A second bit replaces the first. -/
theorem muxLSB_muxLSB (c : Byte) (x y : Bit) : muxLSB (muxLSB c x) y = muxLSB c y :=
  byte_ext_lsb (by simp only [muxLSB_getLsbD_zero])
    fun b hb => by simp only [muxLSB_getLsbD_of_pos _ _ b hb]

theorem muxLSB_ushiftRight_one (c : Byte) (x : Bit) : muxLSB c x >>> 1 = c >>> 1 := by
  apply BitVec.eq_of_getLsbD_eq
  intro b _
  rw [BitVec.getLsbD_ushiftRight, BitVec.getLsbD_ushiftRight, muxLSB_getLsbD_of_pos _ _ _ (by omega)]

theorem byte_toNat_eq_upper_add_lsb (c : Byte) : c.toNat = 2 * (c.toNat / 2) + (c.getLsbD 0).toNat := by
  have hlsb : (c.getLsbD 0).toNat = c.toNat % 2 := by
    rw [← BitVec.testBit_toNat, Nat.toNat_testBit, Nat.pow_zero, Nat.div_one]
  omega

theorem muxLSB_toNat (c : Byte) (x : Bit) : (muxLSB c x).toNat = 2 * (c.toNat / 2) + x.toNat := by
  have hupper : (muxLSB c x).toNat / 2 = c.toNat / 2 := by
    simpa [Nat.shiftRight_eq_div_pow] using congrArg BitVec.toNat (muxLSB_ushiftRight_one c x)
  rw [byte_toNat_eq_upper_add_lsb, hupper, muxLSB_getLsbD_zero]

/-- Settles O30: `MuxLSB` replaces bit 0, and a byte's number is twice its upper bits' plus bit 0. -/
theorem muxLSBForms : Obligations.MuxLSBForms := by
  refine ⟨fun c x => ?_, by decide, by decide, by decide, by decide, by decide⟩
  have hc := byte_toNat_eq_upper_add_lsb c
  have hmux := muxLSB_toNat c x
  refine ⟨muxLSB_eq c x, muxLSB_getLsbD_zero c x, muxLSB_getLsbD_of_pos c x, by omega, hmux, muxLSB_own_lsb c,
    ?_, ?_, ?_⟩
  · rintro rfl
    exact muxLSB_own_lsb c
  · rintro hlsb rfl
    rw [hlsb, Bool.toNat_false] at hc
    rw [Bool.toNat_true] at hmux
    omega
  · rintro hlsb rfl
    rw [hlsb, Bool.toNat_true] at hc
    rw [Bool.toNat_false] at hmux
    omega

/-! ## The walk over the pixel bytes (R121) -/

/-- Only the first bits of the stream, one for each pixel byte, are read. -/
theorem embedPixels_take (px : List Byte) (s : List Bit) : embedPixels px (s.take px.length) = embedPixels px s := by
  induction px generalizing s with
  | nil => simp only [embedPixels_nil_left]
  | cons c px ih =>
    cases s with
    | nil => rfl
    | cons x s => simp [embedPixels, ih]

theorem embedPixels_own_lsbs (px : List Byte) : embedPixels px (px.map fun y => y.getLsbD 0) = px := by
  induction px with
  | nil => rfl
  | cons c px ih => rw [List.map_cons, embedPixels, muxLSB_own_lsb, ih]

/-- A second walk that gets as far as the first overwrites all of it. -/
theorem embedPixels_embedPixels (px : List Byte) (s t : List Bit) (h : min s.length px.length ≤ t.length) :
    embedPixels (embedPixels px s) t = embedPixels px t := by
  induction px generalizing s t with
  | nil => simp
  | cons c px ih =>
    cases s with
    | nil => rw [embedPixels_nil_right]
    | cons x s =>
      cases t with
      | nil => simp at h
      | cons y t =>
        simp only [List.length_cons] at h
        simp only [embedPixels, muxLSB_muxLSB, ih s t (by omega)]

/-! ## The image byte by byte -/

theorem embed_getElem?_header {h : Nat} {img : List Byte} (hl : h ≤ img.length) (s : List Bit) {a : Nat}
    (ha : a < h) : (embed h img s)[a]? = img[a]? := by
  rw [← List.getElem?_take_of_lt ha, embed_take h img s hl, List.getElem?_take_of_lt ha]

theorem embed_getElem?_lt {h : Nat} {img : List Byte} (hl : h ≤ img.length) {s : List Bit} {i : Nat} {x : Bit}
    (hx : s[i]? = some x) : (embed h img s)[h + i]? = (img[h + i]?).map fun y => muxLSB y x := by
  rw [← List.getElem?_drop, embed_drop h img s hl, embedPixels_getElem?_lt _ s i x hx, List.getElem?_drop]

theorem embed_getElem?_ge {h : Nat} {img : List Byte} (hl : h ≤ img.length) {s : List Bit} {i : Nat}
    (hi : s.length ≤ i) : (embed h img s)[h + i]? = img[h + i]? := by
  rw [← List.getElem?_drop, embed_drop h img s hl, embedPixels_getElem?_ge _ s i hi, List.getElem?_drop]

theorem embed_take_capacity (h : Nat) (img : List Byte) (s : List Bit) :
    embed h img (s.take (img.length - h)) = embed h img s := by
  rw [embed, ← List.length_drop, embedPixels_take, embed]

/-- Embedding an image's own low bits is no change. -/
theorem embed_extract (h : Nat) (img : List Byte) : embed h img (extract h img) = img := by
  rw [embed, extract, embedPixels_own_lsbs, List.take_append_drop]

theorem embed_embed {h : Nat} {img : List Byte} (hl : h ≤ img.length) {s t : List Bit}
    (hcover : min s.length (img.length - h) ≤ t.length) : embed h (embed h img s) t = embed h img t := by
  rw [embed, embed_take h img s hl, embed_drop h img s hl, embedPixels_embedPixels _ s t (by simpa using hcover),
    embed]

/-- Bits 7 to 1 of every byte of the image are preserved. -/
theorem embed_getElem?_upper {h : Nat} {img : List Byte} (hl : h ≤ img.length) (s : List Bit) (a : Nat) :
    ((embed h img s)[a]?).map (fun y : Byte => y >>> 1) = (img[a]?).map fun y : Byte => y >>> 1 := by
  by_cases ha : a < h
  · rw [embed_getElem?_header hl s ha]
  · obtain ⟨i, rfl⟩ := Nat.exists_eq_add_of_le (Nat.le_of_not_lt ha)
    cases hx : s[i]? with
    | none => rw [embed_getElem?_ge hl (List.getElem?_eq_none_iff.mp hx)]
    | some x => simp [embed_getElem?_lt hl hx, Function.comp_def, muxLSB_ushiftRight_one]

/-! ## What `extract` reads back -/

/-- As far as stream and pixels both go, the embedded bits are read back. -/
theorem extract_embed_getElem?_lt {h : Nat} {img : List Byte} (hl : h ≤ img.length) {s : List Bit} {i : Nat}
    (hi : i < min s.length (img.length - h)) : (extract h (embed h img s))[i]? = s[i]? := by
  rw [extract_embed h img s hl, List.getElem?_append_left (by rw [List.length_take]; omega),
    List.getElem?_take_of_lt (by omega)]

/-- Beyond the stream the cover's own low bits are read back. -/
theorem extract_embed_getElem?_ge {h : Nat} {img : List Byte} (hl : h ≤ img.length) {s : List Bit} {i : Nat}
    (hi : s.length ≤ i) : (extract h (embed h img s))[i]? = (extract h img)[i]? := by
  rw [extract_getElem?, embed_getElem?_ge hl hi, extract_getElem?]

/-- Settles O33: a second walk over the pixels sets bit 0 again as far as it gets, and neither walk sets another bit. -/
theorem embedLaws : Obligations.EmbedLaws := by
  intro h img s t hl
  refine ⟨embed_extract h img, embed_embed hl (Nat.min_le_left ..), embed_embed hl, fun i x ht hi hx => ?_,
    embed_getElem?_upper hl s⟩
  have hl' : h ≤ (embed h img s).length := by rwa [embed_length]
  rw [← extract_getElem?, extract_embed_getElem?_ge hl' ht, extract_embed_getElem?_lt hl hi, hx]

/-- Settles O35: the embedded bits as far as the pixels go, then the cover's own low bits. -/
theorem extractAfterEmbed : Obligations.ExtractAfterEmbed := by
  intro h img s hl
  refine ⟨by rw [extract_length, embed_length], fun i hi => extract_embed_getElem?_lt hl hi, fun i hi => ?_,
    fun hfits => ?_, fun hover => extract_embed_of_overflow hl hover.le⟩
  · rw [extract_embed_getElem?_ge hl hi, extract_getElem?]
  · rw [extract_embed h img s hl, List.take_of_length_le hfits]

/-! ## The commands (R121, R123, R125) -/

/-- The embedding half succeeds where `STRICT` is 0 or the stream fits (R123). -/
theorem embedWrites_of_room {h : Nat} {c : List Byte} {bits : List Bit} {x : Bool} (hl : h ≤ c.length)
    (hroom : x = false ∨ bits.length ≤ c.length - h) :
    embedWrites h c bits x =
      { out := some (embed h c bits), status := if c.length - h < bits.length then 0x0A#8 else 0x02#8 } := by
  have hcap : ¬ (x = true ∧ c.length - h < bits.length) := by
    rintro ⟨rfl, hover⟩
    obtain hlax | hfits := hroom
    · cases hlax
    · omega
  rw [embedWrites, if_neg (by omega), if_neg hcap, statusSuccess_eq]
  simp only [decide_eq_true_eq]

theorem exec_embed_of_small {s : State} (hsmall : s.car.length < s.hdrSize) :
    exec .embed s = .next { s with status := 0x24#8 } := by
  rw [exec_eq_write, commandWrites, embedWrites, if_pos hsmall]
  rfl

theorem exec_embed_of_strict_overflow {s : State} (hl : s.hdrSize ≤ s.car.length) (hstrict : strict s = true)
    (hover : s.car.length - s.hdrSize < s.bit.length) : exec .embed s = .next { s with status := 0x34#8 } := by
  rw [exec_eq_write, commandWrites, embedWrites, if_neg (by omega), if_pos ⟨hstrict, hover⟩]
  rfl

theorem exec_embed_of_success {s : State} (hl : s.hdrSize ≤ s.car.length)
    (hroom : strict s = false ∨ s.bit.length ≤ s.car.length - s.hdrSize) :
    exec .embed s = .next { s with
      out := embed s.hdrSize s.car s.bit
      status := if s.car.length - s.hdrSize < s.bit.length then 0x0A#8 else 0x02#8 } := by
  rw [exec_eq_write, commandWrites, embedWrites_of_room hl hroom]
  rfl

theorem exec_embed_of_fits {s : State} (hl : s.hdrSize ≤ s.car.length)
    (hfits : s.bit.length ≤ s.car.length - s.hdrSize) :
    exec .embed s = .next { s with out := embed s.hdrSize s.car s.bit, status := 0x02#8 } := by
  rw [exec_embed_of_success hl (.inr hfits), if_neg (by omega)]

theorem exec_extract_of_small {s : State} (hsmall : s.car.length < s.hdrSize) :
    exec .extract s = .next { s with status := 0x24#8 } := by
  rw [exec_eq_write, commandWrites, if_pos hsmall]
  rfl

theorem exec_extract_of_success {s : State} (hl : s.hdrSize ≤ s.car.length) :
    exec .extract s = .next { s with bit := extract s.hdrSize s.car, status := 0x02#8 } := by
  rw [exec_eq_write, commandWrites, if_neg (by omega)]
  rfl

/-- Settles O31: the half's two checks in their order, and on success the image byte by byte. -/
theorem embedMultiplexesBits : Obligations.EmbedMultiplexesBits := by
  refine ⟨rfl, fun s => ⟨exec_embed_of_small, exec_embed_of_strict_overflow, fun hl hroom =>
    ⟨_, exec_embed_of_success hl hroom, rfl, embed_length .., fun a => embed_getElem?_header hl s.bit,
      fun i c x hc hx => ?_, fun i => embed_getElem?_ge hl⟩⟩⟩
  rw [embed_getElem?_lt hl hx, hc, Option.map_some, muxLSB_eq]

/-- Settles O32: the bits beyond the pixels reach no byte, and `STRICT` is read only where there are some. -/
theorem capacityPolicy : Obligations.CapacityPolicy := by
  intro s hl
  refine ⟨fun hover hlax => ?_, fun hover hstrict => exec_embed_of_strict_overflow hl hstrict hover,
    fun hfits => ⟨embed s.hdrSize s.car s.bit, 0x02#8, fun c =>
      exec_embed_of_fits (s := { s with ctrl := c }) hl hfits⟩⟩
  rw [exec_embed_of_success hl (.inl hlax), if_pos hover, embed_take_capacity]

/-- Settles O34: the extractor reads bit 0 of the byte at each index behind the header. -/
theorem extractTakesLowBits : Obligations.ExtractTakesLowBits := by
  refine ⟨rfl, fun s => ⟨exec_extract_of_small, fun hl =>
    ⟨_, exec_extract_of_success hl, rfl, extract_length .., fun i c hc => ?_⟩⟩⟩
  rw [extract_getElem?, hc, Option.map_some]

end Sys2Proof.Machine
end

section
/-! PROOFS. The composite commands: `ENCODE` and `DECODE` as their two halves in order. -/

namespace Sys2Proof.Machine

/-- The same behind a whole command that wrote `BIT` and left the status `u`: every command's own `STATUS` replaces it. -/
theorem write_after_bit_status (s : State) (v : List Bit) (u : BitVec 8) (w : Writes) (h : w.bit = none) :
    { s with bit := v, status := u }.write w = s.write { w with bit := some v } :=
  write_after_bit s v w h

/-! ## ENCODE (R140) -/

/-- `EMBED` reads no `STATUS`, so it does behind `PACK` what the second half of `ENCODE` does. -/
theorem exec_encode_eq_exec_embed (s : State) :
    exec .encode s = exec .embed { s with bit := pack s.pay, status := 0x02#8 } := by
  rw [exec_eq_write, exec_eq_write]
  exact congrArg _ (write_after_bit_status s _ _ _ (embedWrites_bit ..)).symm

/-- Settles O37: the frame has `8 * PAY_LEN + 16` bits, and each case of `ENCODE` is that of `EMBED` on the frame. -/
theorem encodeIsPackThenEmbed : Obligations.EncodeIsPackThenEmbed := by
  refine ⟨rfl, fun s => ⟨⟨_, exec_pack s, exec_encode_eq_exec_embed s⟩, ?_⟩⟩
  rw [exec_encode_eq_exec_embed, ← pack_length]
  exact ⟨fun hsmall => exec_embed_of_small hsmall,
    fun hl hstrict hover => exec_embed_of_strict_overflow hl hstrict hover,
    fun hl hroom => exec_embed_of_success hl hroom⟩

/-! ## DECODE (R141) -/

theorem exec_decode_of_small {s : State} (hsmall : s.car.length < s.hdrSize) :
    exec .decode s = .next { s with status := 0x24#8 } := by
  rw [exec_eq_write, commandWrites, if_pos hsmall]
  rfl

/-- `UNPACK` reads no `STATUS`, so it does behind a successful `EXTRACT` what the second half of `DECODE` does. -/
theorem exec_decode_eq_exec_unpack {s : State} (hl : s.hdrSize ≤ s.car.length) :
    exec .decode s = exec .unpack { s with bit := extract s.hdrSize s.car, status := 0x02#8 } := by
  rw [exec_eq_write .decode, commandWrites, if_neg (by omega), exec_eq_write]
  exact congrArg _ (write_after_bit_status s _ _ _ (unpackWrites_bit _)).symm

/-- `DECODE` after its first half: `EXTRACT` succeeds exactly where `CAR` has room for its header. -/
theorem exec_decode_of_exec_extract (s : State) :
    ∃ s₁ : State, exec .extract s = .next s₁ ∧
      (statusDone s₁.status = true → exec .decode s = exec .unpack s₁) ∧
      (statusDone s₁.status = false → exec .decode s = .next s₁) := by
  by_cases hsmall : s.car.length < s.hdrSize
  · refine ⟨_, exec_extract_of_small hsmall, fun hdone => ?_, fun _ => exec_decode_of_small hsmall⟩
    simp [statusDone] at hdone
  · have hl := Nat.le_of_not_lt hsmall
    refine ⟨_, exec_extract_of_success hl, fun _ => exec_decode_eq_exec_unpack hl, fun herr => ?_⟩
    simp [statusDone] at herr

/-- Settles O38: the search on the extracted bits decides between the two ends of the second half. -/
theorem decodeIsExtractThenUnpack : Obligations.DecodeIsExtractThenUnpack := by
  refine ⟨rfl, fun s => ⟨exec_decode_of_exec_extract s, exec_decode_of_small, fun hl k hk => ?_, fun hl hno => ?_⟩⟩
  · have hfind := (findTerm_eq_some_iff _ k).mpr hk
    exact ⟨_, unpack_of_findTerm hfind, groupBytes_length .., exec_decode_of_findTerm hl hfind⟩
  · exact exec_decode_of_findTerm_none hl ((findTerm_eq_none_iff _).mpr hno)

end Sys2Proof.Machine
end

section
/-! PROOFS. The host's moves: a step as the host's next move, what each move does while the engine is idle, and what is
left of them while it is busy. -/

namespace Sys2Proof.Machine

open Sys2Proof.Safety

/-! ## The step makes the next move (R151, R62) -/

/-- Settles O6: the step's own case of a nonempty list of moves. -/
theorem stepMakesTheNextMove : Obligations.StepMakesTheNextMove := by
  intro s m rest hhost
  rw [step, hhost]

/-! ## The write of a byte to `CMD` (R156) -/

theorem issueCommand_of_decode {v : Byte} {i : Instr} (hv : decode v = .ok i) (s : State) :
    issueCommand v s = exec i s := by
  rw [issueCommand, hv]

theorem runMove_writeCmd_of_not_busy (v : Byte) {s : State} (hidle : busy s = false) :
    runMove (.writeCmd v) s = issueCommand v s :=
  runMove_of_not_busy _ s hidle

/-- `busy` does not look at the host's moves, so the engine is still idle once the move is taken off the list. -/
theorem step_writeCmd_of_not_busy {s : State} {v : Byte} {rest : List HostMove} (hhost : s.host = .writeCmd v :: rest)
    (hidle : busy s = false) : step s = issueCommand v { s with host := rest } :=
  (stepMakesTheNextMove s _ rest hhost).trans
    (runMove_writeCmd_of_not_busy v (s := { s with host := rest }) hidle)

/-- Settles O5: the step issues the byte, and the issue of a legal byte is the command's `exec`. -/
theorem stepRunsTheDecodedCommand : Obligations.StepRunsTheDecodedCommand :=
  fun _ _ _ _ hhost hidle hv => (step_writeCmd_of_not_busy hhost hidle).trans (issueCommand_of_decode hv _)

/-- Settles O54: the step issues the byte, which runs the decoded command or raises `IllegalCommand`. -/
theorem commandWriteIssuesTheByte : Obligations.CommandWriteIssuesTheByte := by
  intro s v hidle
  refine ⟨runMove_writeCmd_of_not_busy v hidle, fun rest hhost => ?_⟩
  have hstep := step_writeCmd_of_not_busy hhost hidle
  exact ⟨hstep, fun i hv => hstep.trans (issueCommand_of_decode hv _),
    fun hv => hstep.trans (issueCommand_illegal v hv _)⟩

/-! ## A table word as the next move (log entry 10) -/

theorem decode_tableByte_of_decodeTableWord {nbits w : Nat} {i : Instr} (h : decodeTableWord nbits w = some i) :
    decode (tableByte nbits w) = .ok i := by
  unfold decodeTableWord at h
  split_ifs at h
  cases hv : decode (tableByte nbits w) with
  | ok j => rw [hv] at h; exact congrArg Except.ok (Option.some.inj h)
  | error e => rw [hv] at h; cases h

theorem statusBusy_clearBusy (v : BitVec 8) : statusBusy (clearBusy v) = false := by
  rw [statusBusy, clearBusy, BitVec.getLsbD_and]
  exact Bool.and_false _

/-- Settles O7: the placed write of `CMD` is the next move, and `BUSY` was cleared for it. -/
theorem tableWordRunsNext : Obligations.TableWordRunsNext := by
  intro s nbits w i h
  have hidle : busy (s.withFetchWord nbits w) = false := statusBusy_clearBusy s.status
  exact stepRunsTheDecodedCommand _ _ i s.host rfl hidle (decode_tableByte_of_decodeTableWord h)

/-! ## Moves while the engine is busy (R151, R204, U8; log entry 3) -/

theorem runMove_of_busy {m : HostMove} {s : State} (hm : m ≠ .reset) (hbusy : busy s = true) :
    runMove m s = .refused .hostMoveWhileBusy := by
  simp [runMove, hm, hbusy]

theorem runMove_reset (s : State) : runMove .reset s = .next (moveReset s) := by
  simp [runMove, idleMove]

/-- Settles O9: the step makes the next move, and `RESET` alone is made whatever `STATUS` is. -/
theorem busyAdmitsOnlyReset : Obligations.BusyAdmitsOnlyReset := by
  intro s m rest hhost
  rw [stepMakesTheNextMove s m rest hhost]
  refine ⟨fun hm hbusy => runMove_of_busy hm hbusy, ?_⟩
  rintro rfl
  exact runMove_reset _

/-! ## LOAD, READ and COPY (R152 to R154) -/

/-- Settles O10: an idle engine's `LOAD` writes its one buffer, whose length is stored with it. -/
theorem loadReplacesBuffer : Obligations.LoadReplacesBuffer :=
  fun s hidle =>
    ⟨fun _ => ⟨runMove_of_not_busy _ s hidle, rfl⟩, fun _ => ⟨runMove_of_not_busy _ s hidle, rfl⟩,
      fun _ => ⟨runMove_of_not_busy _ s hidle, rfl⟩⟩

/-- No value of R185 has the reserved bit 7 set, so a read of `STATUS` gives the whole register (R29). -/
theorem statusValues_masked : ∀ v ∈ statusValues, v &&& 0x7F#8 = v := by decide

/-- A `CTRL` value whose reserved bits are 0 is what a write of itself stores (R28). -/
theorem ctrlWritten_of_reserved_zero {v : BitVec 8} (h : v &&& 0xFE#8 = 0#8) : ctrlWritten v = v :=
  calc v &&& 0x01#8
      = (v &&& 0x01#8) ||| (v &&& 0xFE#8) := by rw [h, BitVec.or_zero]
    _ = v &&& (0x01#8 ||| 0xFE#8) := BitVec.and_or_distrib_left.symm
    _ = v := BitVec.and_allOnes

theorem readReg_status_of_inv {s : State} (hs : Safety.Inv s) : readReg .status s = s.status.toNat := by
  obtain ⟨hstatus, -⟩ := hs
  rw [readReg, statusValues_masked _ hstatus]

/-- A read of `CTRL` masks the register as a write does (R28, D26). -/
theorem readReg_ctrl_of_reserved_zero {s : State} (h : s.ctrl &&& 0xFE#8 = 0#8) : readReg .ctrl s = s.ctrl.toNat :=
  congrArg BitVec.toNat (ctrlWritten_of_reserved_zero h)

/-- Settles O11: the replies are the buffers and registers; under the invariant the mask of a `STATUS` or `CTRL` read
takes nothing away, and an element has a value exactly below its list's length. -/
theorem readReturnsAndChangesNothing : Obligations.ReadReturnsAndChangesNothing := by
  refine ⟨fun s _ hidle => runMove_of_not_busy _ s hidle, fun s => ?_, fun s i => ?_⟩
  · refine ⟨rfl, rfl, rfl, rfl, fun _ => rfl, rfl, rfl, rfl, rfl, rfl, rfl, rfl, rfl, fun hs => ?_⟩
    have ⟨_, hctrl⟩ := hs
    exact ⟨readReg_status_of_inv hs, readReg_ctrl_of_reserved_zero hctrl⟩
  · exact ⟨List.getElem?_eq_none_iff, List.getElem?_eq_none_iff, List.getElem?_eq_none_iff,
      List.getElem?_eq_none_iff⟩

/-- Settles O12: both moves write the content of `OUT` to `CAR`. -/
theorem copyIsReadThenLoad : Obligations.CopyIsReadThenLoad := by
  intro s hidle
  have hcopy : runMove .copyOutToCar s = .next { s with car := s.out } := runMove_of_not_busy _ s hidle
  refine ⟨hcopy, rfl, fun v hread => ?_⟩
  obtain rfl : s.out = v := Reply.bytes.inj hread
  exact hcopy.trans (runMove_of_not_busy (.loadCar s.out) s hidle).symm

/-! ## Configuration writes (R157, D26, D27; log entry 7) -/

theorem ctrlWritten_getLsbD (v : BitVec 8) (b : Nat) :
    (ctrlWritten v).getLsbD b = (v.getLsbD b && decide (b = 0)) := by
  rw [ctrlWritten, BitVec.getLsbD_and, BitVec.getLsbD_one]
  simp

theorem ctrlWritten_bitByte (x : Bit) : ctrlWritten (bitByte x) = bitByte x := by cases x <;> rfl

theorem bitByte_toNat (x : Bit) : (bitByte x).toNat = x.toNat := by cases x <;> rfl

theorem ctrlStrict_bitByte (x : Bit) : ctrlStrict (bitByte x) = x := by cases x <;> rfl

/-- Settles O13: a write of `CTRL` stores bit 0 only, and `SET CTRL.STRICT` is the write of the bit as a byte. -/
theorem configurationWrites : Obligations.ConfigurationWrites := by
  intro s hidle
  refine ⟨fun x => ⟨moveSetStrict x s, runMove_of_not_busy _ s hidle, rfl, ?_, ?_⟩,
    fun v => ⟨moveWriteCtrl v s, runMove_of_not_busy _ s hidle, rfl, ?_, fun b hb => ?_, ?_⟩,
    fun n => runMove_of_not_busy _ s hidle, fun r n => runMove_of_not_busy _ s hidle⟩
  · rw [moveSetStrict_ctrl, ctrlWritten_bitByte, bitByte_toNat]
  · rw [strict, moveSetStrict_ctrl, ctrlWritten_bitByte, ctrlStrict_bitByte]
  · rw [moveWriteCtrl_ctrl, ctrlWritten_getLsbD]
    exact Bool.and_true _
  · rw [moveWriteCtrl_ctrl, ctrlWritten_getLsbD, decide_eq_false hb.ne', Bool.and_false]
  · exact readReg_ctrl_of_reserved_zero (ctrlWritten_reserved_zero v)

end Sys2Proof.Machine
end

section
/-! PROOFS. The statements of the exception family: the order of the checks, what an error leaves unchanged, and the
statuses each command ends in. -/

namespace Sys2Proof.Machine

open Sys2Proof.Safety

/-! ## A command that is known to have completed -/

theorem eq_write_of_exec_eq_next {i : Instr} {s t : State} (h : exec i s = .next t) :
    t = s.write (commandWrites i s) :=
  (Host.Outcome.next.inj ((exec_eq_write i s).symm.trans h)).symm

theorem status_mem_of_exec_eq_next {i : Instr} {s t : State} (h : exec i s = .next t) : t.status ∈ statusesOf i := by
  rw [eq_write_of_exec_eq_next h]
  exact commandWrites_status_mem i s

/-! ## The order of the checks (R178) -/

theorem exec_encode_of_small {s : State} (hsmall : s.car.length < s.hdrSize) :
    exec .encode s = .next { s with bit := pack s.pay, status := 0x24#8 } := by
  rw [exec_encode_eq_exec_embed]
  exact exec_embed_of_small hsmall

theorem exec_encode_of_strict_overflow {s : State} (hl : s.hdrSize ≤ s.car.length) (hstrict : strict s = true)
    (hover : s.car.length - s.hdrSize < 8 * s.pay.length + 16) :
    exec .encode s = .next { s with bit := pack s.pay, status := 0x34#8 } := by
  rw [← pack_length] at hover
  rw [exec_encode_eq_exec_embed]
  exact exec_embed_of_strict_overflow hl hstrict hover

/-- The two checks that come second belong to different commands. -/
theorem insufficientCapacity_noMarkerFound_exclusive (i : Instr) :
    ¬ (0x34#8 ∈ statusesOf i ∧ 0x14#8 ∈ statusesOf i) := by
  cases i <;> decide

/-- Settles O43: an image too short for its header decides each of its commands alone, and only behind it does the one
later check of the command count. -/
theorem errorPriority : Obligations.ErrorPriority := by
  refine ⟨fun v s hv => ⟨_, issueCommand_illegal v hv s, rfl⟩, fun i s hi hsmall => ?_,
    fun s hl hstrict => ⟨fun hover => ⟨_, exec_embed_of_strict_overflow hl hstrict hover, rfl⟩,
      fun hover => ⟨_, exec_encode_of_strict_overflow hl hstrict hover, rfl⟩⟩,
    fun s hl hno => ⟨_, exec_decode_of_findTerm_none hl ((findTerm_eq_none_iff _).mpr hno), rfl⟩, ?_⟩
  · cases i with
    | embed => exact ⟨_, exec_embed_of_small hsmall, rfl⟩
    | extract => exact ⟨_, exec_extract_of_small hsmall, rfl⟩
    | encode => exact ⟨_, exec_encode_of_small hsmall, rfl⟩
    | decode => exact ⟨_, exec_decode_of_small hsmall, rfl⟩
    | pack | unpack => exact absurd hi (by decide)
  · rintro i s s' t t' h h' ⟨hcap, hmark⟩
    exact insufficientCapacity_noMarkerFound_exclusive i
      ⟨hcap ▸ status_mem_of_exec_eq_next h, hmark ▸ status_mem_of_exec_eq_next h'⟩

/-! ## What an error writes (R177) -/

theorem statusSuccess_noErr (b : Bool) : (statusSuccess b).getLsbD 2 = false := by cases b <;> rfl

/-- The unpacking half has one error, and it writes nothing but `STATUS`. -/
theorem unpackWrites_of_error {bits : List Bit} (herr : (unpackWrites bits).status.getLsbD 2 = true) :
    unpackWrites bits = { status := (unpackWrites bits).status } := by
  cases h : findTerm bits with
  | none => rw [unpackWrites_of_findTerm_none h]
  | some k => simp [unpackWrites_of_findTerm h] at herr

/-- Both errors of the embedding half write nothing but `STATUS`. -/
theorem embedWrites_of_error {h : Nat} {c : List Byte} {bits : List Bit} {x : Bool}
    (herr : (embedWrites h c bits x).status.getLsbD 2 = true) :
    embedWrites h c bits x = { status := (embedWrites h c bits x).status } := by
  unfold embedWrites at herr ⊢
  split_ifs at herr ⊢ with hsmall hcap
  · rfl
  · rfl
  · exact absurd herr (ne_true_of_eq_false (statusSuccess_noErr _))

/-- A command of one half that ends in an error writes nothing but `STATUS`. -/
theorem commandWrites_of_error {i : Instr} {s : State} (hencode : i ≠ .encode) (hdecode : i ≠ .decode)
    (herr : (commandWrites i s).status.getLsbD 2 = true) :
    commandWrites i s = { status := (commandWrites i s).status } := by
  cases i with
  | pack => simp [commandWrites] at herr
  | unpack => exact unpackWrites_of_error herr
  | embed => exact embedWrites_of_error herr
  | extract =>
    simp only [commandWrites] at herr ⊢
    split_ifs at herr ⊢ with hsmall
    · rfl
    · simp at herr
  | encode => exact absurd rfl hencode
  | decode => exact absurd rfl hdecode

/-- An `ENCODE` that ends in an error has written the frame of its first half. -/
theorem commandWrites_encode_of_error {s : State} (herr : (commandWrites .encode s).status.getLsbD 2 = true) :
    commandWrites .encode s = { bit := some (pack s.pay), status := (commandWrites .encode s).status } := by
  simp only [commandWrites] at herr ⊢
  rw [embedWrites_of_error herr]

/-- A `DECODE` that ends in an error failed in its first half and wrote nothing, or failed in its second and has written
the stream extracted by its first. -/
theorem exec_decode_of_error {s t : State} (h : exec .decode s = .next t) (herr : t.status.getLsbD 2 = true) :
    t = { s with status := 0x24#8 } ∨ t = { s with bit := extract s.hdrSize s.car, status := 0x14#8 } := by
  by_cases hsmall : s.car.length < s.hdrSize
  · exact .inl (Host.Outcome.next.inj (h.symm.trans (exec_decode_of_small hsmall)))
  · have hl := Nat.le_of_not_lt hsmall
    cases hfind : findTerm (extract s.hdrSize s.car) with
    | none => exact .inr (Host.Outcome.next.inj (h.symm.trans (exec_decode_of_findTerm_none hl hfind)))
    | some k =>
      obtain rfl := Host.Outcome.next.inj (h.symm.trans (exec_decode_of_findTerm hl hfind))
      simp at herr

/-- Settles O44: an error's writes are `STATUS` and, in a command of two halves, the `BIT` of a first half that
succeeded. -/
theorem errorsCommitNothing : Obligations.ErrorsCommitNothing := by
  refine ⟨fun v s hv => issueCommand_illegal v hv s,
    fun i s t h herr => ⟨fun hencode hdecode => ?_, ?_, ?_, ?_, ?_⟩⟩
  · obtain rfl := eq_write_of_exec_eq_next h
    rw [commandWrites_of_error hencode hdecode herr]
    rfl
  · rintro rfl
    obtain rfl := eq_write_of_exec_eq_next h
    rw [commandWrites_encode_of_error herr]
    rfl
  · rintro rfl hstatus
    obtain rfl | rfl := exec_decode_of_error h herr
    · rfl
    · cases hstatus
  · rintro rfl hstatus
    obtain rfl | rfl := exec_decode_of_error h herr
    · cases hstatus
    · rfl
  · rintro rfl
    obtain rfl | rfl := exec_decode_of_error h herr
    · exact .inl rfl
    · exact .inr rfl

/-! ## The statuses of each command (60_exceptions.md, section 4) -/

/-- The embedding half truncates only where `STRICT` is 0 and raises `InsufficientCapacity` only where it is 1. -/
theorem strict_of_embedWrites_status (h : Nat) (c : List Byte) (bits : List Bit) (x : Bool) :
    ((embedWrites h c bits x).status = 0x0A#8 → x = false) ∧
    ((embedWrites h c bits x).status = 0x34#8 → x = true) := by
  unfold embedWrites
  split_ifs with hsmall hcap
  · simp
  · obtain ⟨hstrict, -⟩ := hcap
    simp [hstrict]
  · by_cases hover : c.length - h < bits.length
    · have hlax : x = false := Bool.eq_false_iff.mpr fun hstrict => hcap ⟨hstrict, hover⟩
      simp [hover, hlax]
    · simp [hover]

theorem strict_of_commandWrites_status (i : Instr) (s : State) :
    ((commandWrites i s).status = 0x0A#8 → strict s = false) ∧
    ((commandWrites i s).status = 0x34#8 → strict s = true) := by
  have hmem := commandWrites_status_mem i s
  cases i with
  | embed | encode => exact strict_of_embedWrites_status ..
  | pack | unpack | extract | decode =>
    exact ⟨fun h => absurd (h ▸ hmem) (by decide), fun h => absurd (h ▸ hmem) (by decide)⟩

/-- One state for each status of R186: an image of exactly the terminator's bits for 0x02, an image shorter than its
header for 0x24, and otherwise an image with no pixel bytes, `STRICT` being 1 for 0x34 only. -/
def stateEndingIn (v : BitVec 8) : State :=
  if v = 0x02#8 then { State.reset with hdrSize := 0, car := termBits.map bitByte, bit := termBits }
  else if v = 0x24#8 then { State.reset with hdrSize := 1 }
  else { State.reset with hdrSize := 0, bit := [true], ctrl := bitByte (v == 0x34#8) }

/-- From that state every command with the status in its list ends in it. -/
theorem commandWrites_stateEndingIn (i : Instr) :
    ∀ v ∈ statusesOf i, (commandWrites i (stateEndingIn v)).status = v := by
  cases i <;> decide

/-- Settles O45: the statuses of a command's writes, the embedding half's reading of `STRICT`, and a state for each
value. -/
theorem statusOfEachCommand : Obligations.StatusOfEachCommand := by
  refine ⟨fun i s => ?_, fun i v hv => ⟨_, _, exec_eq_write i _, commandWrites_stateEndingIn i v hv⟩,
    fun v s t hv h => ?_⟩
  · obtain ⟨hlax, hstrict⟩ := strict_of_commandWrites_status i s
    exact ⟨_, exec_eq_write i s, commandWrites_status_mem i s, hlax, hstrict⟩
  · obtain rfl := Host.Outcome.next.inj ((issueCommand_illegal v hv s).symm.trans h)
    rfl

end Sys2Proof.Machine
end

section
/-! PROOFS. The statements of the reset family: what brings the reset values back, and that under the invariant no step is
refused. -/

namespace Sys2Proof.Machine

open Sys2Proof.Safety

/-! ## What a move that answers a next state has done -/

/-- A move that is not refused is the idle engine's. -/
theorem idleMove_of_runMove_eq_next {m : HostMove} {s t : State} (h : runMove m s = .next t) :
    idleMove m s = .next t := by
  unfold runMove at h
  split_ifs at h
  exact h

/-- The write of any byte to `CMD` ends at a status other than that of reset, and leaves `HDR_SIZE` and `CTRL`. -/
theorem issueCommand_status_ne_zero_and_frame {v : Byte} {s t : State} (h : issueCommand v s = .next t) :
    t.status ≠ 0x00#8 ∧ t.hdrSize = s.hdrSize ∧ t.ctrl = s.ctrl := by
  obtain ⟨i, -, e⟩ | ⟨-, e⟩ := issueCommand_cases v s
  · obtain rfl := Host.Outcome.next.inj (e.symm.trans h)
    obtain ⟨-, hne⟩ := statusesOf_subset_statusValues i _ (commandWrites_status_mem i s)
    exact ⟨hne, rfl, rfl⟩
  · obtain rfl := Host.Outcome.next.inj (e.symm.trans h)
    exact ⟨by simp, rfl, rfl⟩

/-! ## RESET (R200, R201, R38) -/

/-- Settles O17: a move that is neither `RESET` nor a write of `CMD` leaves `STATUS`, and one that is no write of
`HDR_SIZE` or `CTRL` leaves that register. -/
theorem resetRestoresAndIsTheOnlyWay : Obligations.ResetRestoresAndIsTheOnlyWay := by
  refine ⟨runMove_reset, fun m s t h => ?_⟩
  have hmove := idleMove_of_runMove_eq_next h
  cases m with
  | reset => exact ⟨fun _ _ => rfl, fun _ => .inl rfl, fun _ => .inl rfl⟩
  | writeCmd v =>
    obtain ⟨hstatus, hhdr, hctrl⟩ := issueCommand_status_ne_zero_and_frame hmove
    exact ⟨fun _ hzero => absurd hzero hstatus, fun hne => absurd hhdr hne, fun hne => absurd hctrl hne⟩
  | setHdrSize n =>
    cases hmove
    exact ⟨fun hne hzero => absurd hzero hne, fun _ => .inr ⟨n, rfl⟩, fun hne => absurd rfl hne⟩
  | setStrict x =>
    cases hmove
    exact ⟨fun hne hzero => absurd hzero hne, fun hne => absurd rfl hne, fun _ => .inr (.inl ⟨x, rfl⟩)⟩
  | writeCtrl v =>
    cases hmove
    exact ⟨fun hne hzero => absurd hzero hne, fun hne => absurd rfl hne, fun _ => .inr (.inr ⟨v, rfl⟩)⟩
  | loadCar _ | loadPay _ | loadBit _ | read _ | copyOutToCar | writeReadOnly _ _ =>
    cases hmove
    exact ⟨fun hne hzero => absurd hzero hne, fun hne => absurd rfl hne, fun hne => absurd rfl hne⟩

/-! ## Every step completes (R213) -/

theorem statusValues_not_busy : ∀ v ∈ statusValues, statusBusy v = false := by decide

theorem busy_of_inv {s : State} (hs : Safety.Inv s) : busy s = false := by
  obtain ⟨hstatus, -⟩ := hs
  exact statusValues_not_busy _ hstatus

/-- The write of a byte to `CMD` runs a command or raises `IllegalCommand`, and both complete. -/
theorem exists_issueCommand_eq_next (v : Byte) (s : State) : ∃ t, issueCommand v s = .next t := by
  obtain ⟨i, -, e⟩ | ⟨-, e⟩ := issueCommand_cases v s
  · exact ⟨_, e⟩
  · exact ⟨_, e⟩

theorem exists_idleMove_eq_next (m : HostMove) (s : State) : ∃ t, idleMove m s = .next t := by
  cases m with
  | writeCmd v => exact exists_issueCommand_eq_next v s
  | loadCar _ | loadPay _ | loadBit _ | read _ | copyOutToCar | setStrict _ | writeCtrl _ | setHdrSize _
    | writeReadOnly _ _ | reset => exact ⟨_, rfl⟩

/-- Settles O53: a step waits, is refused or makes a move that completes, and the invariant's `BUSY = 0` shuts out the
refusal. -/
theorem everyStepCompletes : Obligations.EveryStepCompletes := by
  intro s hs
  obtain ⟨-, e⟩ | ⟨m, rest, -, ⟨hbusy, -, -⟩ | ⟨-, e⟩⟩ := step_cases s
  · exact ⟨s, e⟩
  · exact absurd hbusy (ne_true_of_eq_false (busy_of_inv hs))
  · rw [e]
    exact exists_idleMove_eq_next m _

end Sys2Proof.Machine
end
